-- ==== Sys2Proof/Word.lean ====
section
/-! DEFINITION. The plain types of the machine: bytes, 16-bit words, 12-bit addresses, register
numbers, and the list that holds memory. Every quantity is unsigned (00_scope.md R7). -/

namespace Sys2Proof

/-- An 8-bit value: a general register, a timer, a byte of memory, the field `kk` (R6, R21). -/
abbrev Byte := BitVec 8

/-- A 16-bit value: an instruction word, `pc`, `I`, a stack entry (R23, R24, R25, R70). -/
abbrev Word := BitVec 16

/-- The 12-bit address field `nnn` (30_encoding.md R71). -/
abbrev Addr12 := BitVec 12

/-- The number of a general register, of a key, or a sprite height: 0 to 15 (R21, R28, R72). -/
abbrev Reg := Fin 16

/-- Memory as plain data: the cells that differ from what an unlisted address reads as, by rising
address. Its operations are in Machine/Memory.lean. -/
abbrev Memory := List Host.Cell

end Sys2Proof
end

