-- ==== Sys2Proof/WellFormed.lean ====
section
/-! DEFINITION. Which terms of `Instr` are instructions of the machine. The operand types already
bound every field (30_encoding.md R72: every value of x, y, n, kk and nnn is legal), so one check is
left: the two words of class 0 that are CLS and RET are not SYS (R75, R78). -/

namespace Sys2Proof

/-- The word of `SYS nnn` is neither 00E0 (CLS) nor 00EE (RET) (R75, R110). -/
def sysIsLegacy (nnn : Addr12) : Bool := decide (nnn ≠ 0x0E0#12) && decide (nnn ≠ 0x0EE#12)

/-- An instruction that some word decodes to. -/
def Instr.wellFormed : Instr → Bool
  | .sys nnn => sysIsLegacy nnn
  | .cls | .ret | .jp _ | .call _ | .seImm _ _ | .sneImm _ _ | .seReg _ _ | .ldImm _ _
  | .addImm _ _ | .ldReg _ _ | .orReg _ _ | .andReg _ _ | .xorReg _ _ | .addReg _ _
  | .subReg _ _ | .shr _ _ | .subnReg _ _ | .shl _ _ | .sneReg _ _ | .ldI _ | .jpV0 _
  | .rnd _ _ | .drw _ _ _ | .skp _ | .sknp _ | .ldVxDt _ | .ldVxK _ | .ldDtVx _ | .ldStVx _
  | .addI _ | .ldF _ | .ldB _ | .ldMemVx _ | .ldVxMem _ => true

end Sys2Proof
end

