-- ==== Sys2Proof/Decode.lean ====
section
/-! DEFINITION. The decoder of 30_encoding.md R76, total on every word and every list of bytes; the
encoder, written from the patterns of R75; and the opcode map of R75 as a table of masks. -/

namespace Sys2Proof

/-! ### The fields of a word (R71) -/

/-- `class`, bits 15:12. -/
def opClass (op : Word) : BitVec 4 := op.extractLsb' 12 4

/-- `x`, bits 11:8. -/
def opX (op : Word) : Reg := (op.extractLsb' 8 4).toFin

/-- `y`, bits 7:4. -/
def opY (op : Word) : Reg := (op.extractLsb' 4 4).toFin

/-- `n`, bits 3:0. -/
def opN (op : Word) : Reg := (op.extractLsb' 0 4).toFin

/-- `kk`, bits 7:0. -/
def opKK (op : Word) : Byte := op.extractLsb' 0 8

/-- `nnn`, bits 11:0. -/
def opNNN (op : Word) : Addr12 := op.extractLsb' 0 12

/-! ### The decoder -/

/-- Why a word or a list of bytes is not an instruction. The names are the model's. -/
inductive Reject where
  /-- 5xyN with N ≠ 0 (R77) -/
  | class5Selector
  /-- 8xyN with N one of 8 9 A B C D F (R77) -/
  | class8Selector
  /-- 9xyN with N ≠ 0 (R77) -/
  | class9Selector
  /-- Exkk with kk other than 9E and A1 (R77) -/
  | classESelector
  /-- Fxkk with kk other than the nine of R76 (R77) -/
  | classFSelector
  /-- fewer than two bytes: no instruction is that short (R70) -/
  | truncated
  deriving DecidableEq, Repr

/-- What the decoder answers: an instruction, or the `Invalid` of R76 with the class whose selector
has no meaning. -/
inductive Decoded where
  | instr (i : Instr)
  | invalid (r : Reject)
  deriving DecidableEq, Repr

/-- Second-level dispatch of class 0 (R76, R78). -/
def decode0 (op : Word) : Decoded :=
  if op = 0x00E0#16 then .instr .cls
  else if op = 0x00EE#16 then .instr .ret
  else .instr (.sys (opNNN op))

/-- Second-level dispatch of class 8 on `n` (R76). -/
def decode8 (op : Word) : Decoded :=
  match (opN op).val with
  | 0x0 => .instr (.ldReg (opX op) (opY op))
  | 0x1 => .instr (.orReg (opX op) (opY op))
  | 0x2 => .instr (.andReg (opX op) (opY op))
  | 0x3 => .instr (.xorReg (opX op) (opY op))
  | 0x4 => .instr (.addReg (opX op) (opY op))
  | 0x5 => .instr (.subReg (opX op) (opY op))
  | 0x6 => .instr (.shr (opX op) (opY op))
  | 0x7 => .instr (.subnReg (opX op) (opY op))
  | 0xE => .instr (.shl (opX op) (opY op))
  | _ => .invalid .class8Selector

/-- Second-level dispatch of class E on `kk` (R76). -/
def decodeE (op : Word) : Decoded :=
  match (opKK op).toNat with
  | 0x9E => .instr (.skp (opX op))
  | 0xA1 => .instr (.sknp (opX op))
  | _ => .invalid .classESelector

/-- Second-level dispatch of class F on `kk` (R76). -/
def decodeF (op : Word) : Decoded :=
  match (opKK op).toNat with
  | 0x07 => .instr (.ldVxDt (opX op))
  | 0x0A => .instr (.ldVxK (opX op))
  | 0x15 => .instr (.ldDtVx (opX op))
  | 0x18 => .instr (.ldStVx (opX op))
  | 0x1E => .instr (.addI (opX op))
  | 0x29 => .instr (.ldF (opX op))
  | 0x33 => .instr (.ldB (opX op))
  | 0x55 => .instr (.ldMemVx (opX op))
  | 0x65 => .instr (.ldVxMem (opX op))
  | _ => .invalid .classFSelector

/-- The dispatch of R76. The class is below 16, so the last line is class F. -/
def decode (op : Word) : Decoded :=
  match (opClass op).toNat with
  | 0x0 => decode0 op
  | 0x1 => .instr (.jp (opNNN op))
  | 0x2 => .instr (.call (opNNN op))
  | 0x3 => .instr (.seImm (opX op) (opKK op))
  | 0x4 => .instr (.sneImm (opX op) (opKK op))
  | 0x5 => if (opN op).val = 0 then .instr (.seReg (opX op) (opY op)) else .invalid .class5Selector
  | 0x6 => .instr (.ldImm (opX op) (opKK op))
  | 0x7 => .instr (.addImm (opX op) (opKK op))
  | 0x8 => decode8 op
  | 0x9 => if (opN op).val = 0 then .instr (.sneReg (opX op) (opY op)) else .invalid .class9Selector
  | 0xA => .instr (.ldI (opNNN op))
  | 0xB => .instr (.jpV0 (opNNN op))
  | 0xC => .instr (.rnd (opX op) (opKK op))
  | 0xD => .instr (.drw (opX op) (opY op) (opN op))
  | 0xE => decodeE op
  | _ => decodeF op

/-- The word two bytes of the instruction stream form: the byte at the lower address is the high half
(20_memory.md R55). -/
def wordOfBytes (b0 b1 : Byte) : Word := b0 ++ b1

/-- The decoder on bytes as they lie in memory: every instruction is two bytes long (R70). -/
def decodeBytes : List Byte → Decoded
  | b0 :: b1 :: _ => decode (wordOfBytes b0 b1)
  | _ => .invalid .truncated

/-- The two bytes, in memory order, of an instruction of 16 bits whose low `nbits` bits are those of
`w`, every bit above them 0. -/
def tableBytes (nbits w : Nat) : List Byte :=
  let v := w % 2 ^ min nbits 16
  [BitVec.ofNat 8 (v / 256), BitVec.ofNat 8 v]

/-- The instruction the decoder reads from an instruction whose bits are `w`, numbered as
spec/opcode_table.json numbers them: bit 0 is the least significant bit of the 16-bit word. -/
def decodeTableWord (nbits w : Nat) : Option Instr :=
  match decodeBytes (tableBytes nbits w) with
  | .instr i => some i
  | .invalid _ => none

/-! ### The encoder -/

/-- The four bits of a nibble field. -/
def nibble (x : Reg) : BitVec 4 := BitVec.ofFin x

/-- A word from its class and `nnn`: format NNN of R73. -/
def wordNNN (cls : BitVec 4) (nnn : Addr12) : Word := cls ++ nnn

/-- A word from its class, `x` and low byte: formats XKK and XS of R73. -/
def wordXKK (cls : BitVec 4) (x : Reg) (kk : Byte) : Word := cls ++ nibble x ++ kk

/-- A word from its class, `x`, `y` and low nibble: formats XYS and XYN of R73. -/
def wordXYN (cls : BitVec 4) (x y : Reg) (n : BitVec 4) : Word := cls ++ nibble x ++ nibble y ++ n

/-- The word of an instruction, from its pattern in R75. -/
def encode : Instr → Word
  | .cls => 0x00E0#16
  | .ret => 0x00EE#16
  | .sys nnn => wordNNN 0x0#4 nnn
  | .jp nnn => wordNNN 0x1#4 nnn
  | .call nnn => wordNNN 0x2#4 nnn
  | .seImm x kk => wordXKK 0x3#4 x kk
  | .sneImm x kk => wordXKK 0x4#4 x kk
  | .seReg x y => wordXYN 0x5#4 x y 0x0#4
  | .ldImm x kk => wordXKK 0x6#4 x kk
  | .addImm x kk => wordXKK 0x7#4 x kk
  | .ldReg x y => wordXYN 0x8#4 x y 0x0#4
  | .orReg x y => wordXYN 0x8#4 x y 0x1#4
  | .andReg x y => wordXYN 0x8#4 x y 0x2#4
  | .xorReg x y => wordXYN 0x8#4 x y 0x3#4
  | .addReg x y => wordXYN 0x8#4 x y 0x4#4
  | .subReg x y => wordXYN 0x8#4 x y 0x5#4
  | .shr x y => wordXYN 0x8#4 x y 0x6#4
  | .subnReg x y => wordXYN 0x8#4 x y 0x7#4
  | .shl x y => wordXYN 0x8#4 x y 0xE#4
  | .sneReg x y => wordXYN 0x9#4 x y 0x0#4
  | .ldI nnn => wordNNN 0xA#4 nnn
  | .jpV0 nnn => wordNNN 0xB#4 nnn
  | .rnd x kk => wordXKK 0xC#4 x kk
  | .drw x y n => wordXYN 0xD#4 x y (nibble n)
  | .skp x => wordXKK 0xE#4 x 0x9E#8
  | .sknp x => wordXKK 0xE#4 x 0xA1#8
  | .ldVxDt x => wordXKK 0xF#4 x 0x07#8
  | .ldVxK x => wordXKK 0xF#4 x 0x0A#8
  | .ldDtVx x => wordXKK 0xF#4 x 0x15#8
  | .ldStVx x => wordXKK 0xF#4 x 0x18#8
  | .addI x => wordXKK 0xF#4 x 0x1E#8
  | .ldF x => wordXKK 0xF#4 x 0x29#8
  | .ldB x => wordXKK 0xF#4 x 0x33#8
  | .ldMemVx x => wordXKK 0xF#4 x 0x55#8
  | .ldVxMem x => wordXKK 0xF#4 x 0x65#8

/-- The two bytes of a word in memory order, the high half first (20_memory.md R55). -/
def wordBytes (w : Word) : List Byte := [w.extractLsb' 8 8, w.extractLsb' 0 8]

/-! ### The opcode map (R75) -/

/-- A row of R75: `op` is the row's instruction when `op AND mask = bits`. -/
structure OpcodeRow where
  mask : Word
  bits : Word
  deriving DecidableEq, Repr

/-- The number of the row of R75 an instruction belongs to. -/
def Instr.rowNumber : Instr → Nat
  | .cls => 1
  | .ret => 2
  | .sys _ => 3
  | .jp _ => 4
  | .call _ => 5
  | .seImm _ _ => 6
  | .sneImm _ _ => 7
  | .seReg _ _ => 8
  | .ldImm _ _ => 9
  | .addImm _ _ => 10
  | .ldReg _ _ => 11
  | .orReg _ _ => 12
  | .andReg _ _ => 13
  | .xorReg _ _ => 14
  | .addReg _ _ => 15
  | .subReg _ _ => 16
  | .shr _ _ => 17
  | .subnReg _ _ => 18
  | .shl _ _ => 19
  | .sneReg _ _ => 20
  | .ldI _ => 21
  | .jpV0 _ => 22
  | .rnd _ _ => 23
  | .drw _ _ _ => 24
  | .skp _ => 25
  | .sknp _ => 26
  | .ldVxDt _ => 27
  | .ldVxK _ => 28
  | .ldDtVx _ => 29
  | .ldStVx _ => 30
  | .addI _ => 31
  | .ldF _ => 32
  | .ldB _ => 33
  | .ldMemVx _ => 34
  | .ldVxMem _ => 35

/-- The masks and match values of rows 1 to 35 of R75, in order. Row 3 (SYS) applies only where rows 1
and 2 do not. -/
def opcodeRows : List OpcodeRow :=
  [⟨0xFFFF#16, 0x00E0#16⟩, ⟨0xFFFF#16, 0x00EE#16⟩, ⟨0xF000#16, 0x0000#16⟩, ⟨0xF000#16, 0x1000#16⟩,
   ⟨0xF000#16, 0x2000#16⟩, ⟨0xF000#16, 0x3000#16⟩, ⟨0xF000#16, 0x4000#16⟩, ⟨0xF00F#16, 0x5000#16⟩,
   ⟨0xF000#16, 0x6000#16⟩, ⟨0xF000#16, 0x7000#16⟩, ⟨0xF00F#16, 0x8000#16⟩, ⟨0xF00F#16, 0x8001#16⟩,
   ⟨0xF00F#16, 0x8002#16⟩, ⟨0xF00F#16, 0x8003#16⟩, ⟨0xF00F#16, 0x8004#16⟩, ⟨0xF00F#16, 0x8005#16⟩,
   ⟨0xF00F#16, 0x8006#16⟩, ⟨0xF00F#16, 0x8007#16⟩] ++
  [⟨0xF00F#16, 0x800E#16⟩, ⟨0xF00F#16, 0x9000#16⟩, ⟨0xF000#16, 0xA000#16⟩, ⟨0xF000#16, 0xB000#16⟩,
   ⟨0xF000#16, 0xC000#16⟩, ⟨0xF000#16, 0xD000#16⟩, ⟨0xF0FF#16, 0xE09E#16⟩, ⟨0xF0FF#16, 0xE0A1#16⟩,
   ⟨0xF0FF#16, 0xF007#16⟩, ⟨0xF0FF#16, 0xF00A#16⟩, ⟨0xF0FF#16, 0xF015#16⟩, ⟨0xF0FF#16, 0xF018#16⟩,
   ⟨0xF0FF#16, 0xF01E#16⟩, ⟨0xF0FF#16, 0xF029#16⟩, ⟨0xF0FF#16, 0xF033#16⟩, ⟨0xF0FF#16, 0xF055#16⟩,
   ⟨0xF0FF#16, 0xF065#16⟩]

end Sys2Proof
end

