-- ==== Sys2Proof/Config.lean ====
section
/-! DEFINITION. The parameters of 00_scope.md R4 as a record, with the constraints R4 asks a model to
check, and the one free value of the machine. The values this hardware takes stand in
Machine/Parameters.lean. -/

namespace Sys2Proof

/-- Parameter `TIMER_PHASE` (R4): whether a step decrements the timers before or after the
instruction's effect. -/
inductive TimerPhase where
  | before
  | after
  deriving DecidableEq, Repr

/-- Parameter `DRAW_WRAP` (R4, 44_draw.md R173): the pixel index wraps as one line of 2048 bits, or
each coordinate wraps on its own. -/
inductive DrawWrap where
  | linear
  | perAxis
  deriving DecidableEq, Repr

/-- The parameters of R4 that a choice is left for. The widths and counts that R4 gives from the
source stand in the types of the state. -/
structure Parameters where
  /-- `PROG_BASE`, where the ROM is placed and where execution starts. -/
  progBase : Nat
  /-- `FONT_BASE`, the address of the first font byte. -/
  fontBase : Nat
  /-- `FB_BASE`, the address of the first framebuffer byte. -/
  fbBase : Nat
  /-- `FONT_DATA`, the 80 font bytes (20_memory.md R52). -/
  fontData : List Byte
  /-- `STACK_DEPTH`, the number of entries of the call stack. -/
  stackDepth : Nat
  /-- `TIMER_PHASE`. -/
  timerPhase : TimerPhase
  /-- `DRAW_WRAP`. -/
  drawWrap : DrawWrap
  deriving DecidableEq, Repr

/-- The constraints of R4: the font ends at or below the program base, the framebuffer lies inside
memory, font and framebuffer do not overlap, the program base is even and leaves room for one
instruction, and the font has 80 bytes. -/
def Parameters.wf (p : Parameters) : Bool :=
  decide (p.fontBase + 80 ≤ p.progBase) &&
  decide (p.fbBase + 256 ≤ 4096) &&
  (decide (p.fontBase + 80 ≤ p.fbBase) || decide (p.fbBase + 256 ≤ p.fontBase)) &&
  decide (p.progBase % 2 = 0) &&
  decide (p.progBase < 4095) &&
  decide (p.fontData.length = 80)

/-- DESIGN CHOICE (log 1). FREE VALUE: the byte the environment puts on the random input at the
step that takes the `n`-th random byte (40_step_cycle.md R100: "a free input, under no law"). It has
no body, so nothing can be proved of its value. -/
opaque Config.randomByte (n : Nat) : Byte

end Sys2Proof
end

