-- ==== Sys2Proof/Machine/Parameters.lean ====
section
/-! DEFINITION. The values the parameters of 00_scope.md R4 take for this hardware, and the font bytes
of 20_memory.md R52. -/

namespace Sys2Proof.Machine

/-- PRESUMED (log 4). `FONT_DATA`, five bytes a glyph, glyphs 0 to F in order (R52; the spec marks the
bytes as from general knowledge). -/
def fontBytes : List Byte :=
  [0xF0#8, 0x90#8, 0x90#8, 0x90#8, 0xF0#8,  0x20#8, 0x60#8, 0x20#8, 0x20#8, 0x70#8,
   0xF0#8, 0x10#8, 0xF0#8, 0x80#8, 0xF0#8,  0xF0#8, 0x10#8, 0xF0#8, 0x10#8, 0xF0#8] ++
  [0x90#8, 0x90#8, 0xF0#8, 0x10#8, 0x10#8,  0xF0#8, 0x80#8, 0xF0#8, 0x10#8, 0xF0#8,
   0xF0#8, 0x80#8, 0xF0#8, 0x90#8, 0xF0#8,  0xF0#8, 0x10#8, 0x20#8, 0x40#8, 0x40#8] ++
  [0xF0#8, 0x90#8, 0xF0#8, 0x90#8, 0xF0#8,  0xF0#8, 0x90#8, 0xF0#8, 0x10#8, 0xF0#8,
   0xF0#8, 0x90#8, 0xF0#8, 0x90#8, 0x90#8,  0xE0#8, 0x90#8, 0xE0#8, 0x90#8, 0xE0#8] ++
  [0xF0#8, 0x80#8, 0x80#8, 0x80#8, 0xF0#8,  0xE0#8, 0x90#8, 0x90#8, 0x90#8, 0xE0#8,
   0xF0#8, 0x80#8, 0xF0#8, 0x80#8, 0xF0#8,  0xF0#8, 0x80#8, 0xF0#8, 0x80#8, 0x80#8]

/-- UNVERIFIED (logs 5, 6, 7, 9): the spec's own decisions D3, D7, D8, D9, D11, D19. The parameters at the
defaults of R4. -/
def parameters : Parameters where
  progBase := 0x200
  fontBase := 0x000
  fbBase := 0x100
  fontData := fontBytes
  stackDepth := 16
  timerPhase := .before
  drawWrap := .linear

end Sys2Proof.Machine
end

