-- ==== Sys2Proof/Machine/Memory.lean ====
section
/-! DEFINITION. Memory: one space of 4096 bytes (20_memory.md R50), held as the list of the cells that
differ from the reset contents. Reading and writing one byte, with and without the range check of R54,
and the canonical form every operation keeps. -/

namespace Sys2Proof.Machine

/-- DESIGN CHOICE (log 11): what an unlisted address reads as is the reset contents without a ROM, the
font table and zero everywhere else (10_state.md R32). -/
def Memory.background (a : Nat) : Byte :=
  if parameters.fontBase ≤ a then parameters.fontData.getD (a - parameters.fontBase) 0#8 else 0#8

/-- `Mem[a]` (R8). The step reads only addresses up to 0xFFF (log 12). -/
def Memory.read : Memory → Nat → Byte
  | [], a => Memory.background a
  | c :: m, a => if a = c.1 then c.2 else Memory.read m a

/-- The list with the cell for `a` put in front, or without it where `b` is what an unlisted address
reads as. -/
def Memory.cons (a : Nat) (b : Byte) (m : Memory) : Memory :=
  if b = Memory.background a then m else (a, b) :: m

/-- `Mem[a] <- b` (R8), keeping the canonical form. -/
def Memory.write : Memory → Nat → Byte → Memory
  | [], a, b => Memory.cons a b []
  | c :: m, a, b =>
    if a < c.1 then Memory.cons a b (c :: m)
    else if a = c.1 then Memory.cons a b m
    else c :: Memory.write m a b

/-- Every address of the list is at least `lo`, the addresses rise strictly, none is above 0xFFF, and
no entry equals what an unlisted address reads as. -/
def Memory.wfFrom : Nat → Memory → Bool
  | _, [] => true
  | lo, c :: m =>
    decide (lo ≤ c.1) && decide (c.1 ≤ 0xFFF) && decide (c.2 ≠ Memory.background c.1) &&
      Memory.wfFrom (c.1 + 1) m

/-- The canonical form of memory. -/
def Memory.wf (m : Memory) : Bool := Memory.wfFrom 0 m

/-- The bytes `bs` written at `a`, `a + 1`, and so on, in order. -/
def Memory.writeList (m : Memory) (a : Nat) : List Byte → Memory
  | [] => m
  | b :: bs => Memory.writeList (Memory.write m a b) (a + 1) bs

end Sys2Proof.Machine
end

