-- ==== Sys2Proof/Machine/State.lean ====
section
/-! DEFINITION. The state of the machine as plain data (10_state.md R20), the causes of its faults
(60_exceptions.md R210), the refusals of the model, and the state right after reset (R32). -/

namespace Sys2Proof.Machine

/-- The four causes of a fault (60_exceptions.md R210). The machine takes a fault as a NEXT state whose
latch holds the cause (log 2), so neither `exec` nor `step` answers `Outcome.fault`; the function that
answers it is `Safety.outcomeOf`, the view of a step in which a fault is an outcome (R216). -/
inductive Fault where
  /-- Code 1, "a decoded instruction's secondary selector has no defined meaning in this ISA" (R211).
  Taken by the step that fetches an invalid word. Safe: the spec's own halt. -/
  | invalidOpcode
  /-- Code 2, "a call exceeds the maximum supported call depth" (R212). Taken by CALL with SP = 16.
  Safe: the spec's own halt. -/
  | stackOverflow
  /-- Code 3, "a return is attempted with no active call frame" (R213). Taken by RET with SP = 0.
  Safe: the spec's own halt. -/
  | stackUnderflow
  /-- Code 4, an access "outside the 4096-byte address space" (R214). Taken by DRW, LD B, LD [I], LD
  Vx,[I] and by the fetch. Safe: the spec's own halt. -/
  | addressOutOfRange
  deriving DecidableEq, Repr

/-- The model's refusals. -/
inductive Refusal where
  /-- An instruction without a meaning, by its mnemonic in spec/opcode_table.json. No arm of `exec`
  raises it. Safe: nothing is claimed of a refused instruction. -/
  | notModelled (mnemonic : String)
  /-- Raised by `resetWith` for a ROM of more than 3584 bytes: "a model should refuse the launch"
  (70_reset_and_hazards.md R241, log 15). No step raises it. Safe: the block's behaviour is not
  defined. -/
  | romTooLong
  deriving DecidableEq, Repr

/-- The entries of the call stack, `STACK_DEPTH` of them (10_state.md R25). -/
abbrev StackEntries := Vector Word parameters.stackDepth

/-- The number of live entries of the call stack, 0 to `STACK_DEPTH` (R25). -/
abbrev StackPointer := Fin (parameters.stackDepth + 1)

/-- The output ports a step sets (40_step_cycle.md R91, R98), held until the next event. -/
structure Output where
  /-- The port `redraw`. -/
  redraw : Bool
  /-- The ports `await_valid` and `await_reg`: the register a key is awaited for. -/
  await : Option Reg
  deriving DecidableEq, Repr

/-- The state of the machine. The first ten fields are the state of R20; `out` and `rnd` are ports of
R91, and `draws` is the model's own counter. -/
structure State where
  /-- `V[0..15]` (R21). -/
  v : Vector Byte 16
  /-- `I` (R23). -/
  i : Word
  /-- `DT` (R27). -/
  dt : Byte
  /-- `ST` (R27). -/
  st : Byte
  /-- `pc` (R24). -/
  pc : Word
  /-- `Stack[0..15]` (R25). -/
  stack : StackEntries
  /-- `SP`, the number of live entries, 0 to 16 (R25). -/
  sp : StackPointer
  /-- `Mem` (R30). -/
  mem : Memory
  /-- `Key[0..15]`, true when pressed (R28). -/
  key : Vector Bool 16
  /-- The fault latch: none while the machine runs (R29). -/
  fault : Option Fault
  /-- DESIGN CHOICE (log 3): the step result's ports `redraw` and `await` (R91, R98). -/
  out : Output
  /-- The byte on the port `rnd` in the latest executed step (R91, R100; log 10). -/
  rnd : Byte
  /-- DESIGN CHOICE (log 1): how many bytes the random input has given. -/
  draws : Nat
  deriving DecidableEq, Repr

/-- Neither redraw nor a key awaited: the result every step starts from (40_step_cycle.md R92). -/
def Output.none : Output where
  redraw := false
  await := Option.none

/-- The state after reset with an empty ROM (10_state.md R32, 70_reset_and_hazards.md R240, R241). -/
def State.reset : State where
  v := Vector.replicate 16 0#8
  i := 0#16
  dt := 0#8
  st := 0#8
  pc := BitVec.ofNat 16 parameters.progBase
  stack := Vector.replicate parameters.stackDepth 0#16
  sp := 0
  mem := []
  key := Vector.replicate 16 false
  fault := Option.none
  out := Output.none
  rnd := 0#8
  draws := 0

end Sys2Proof.Machine
end

