-- ==== Sys2Proof/Machine/Ops.lean ====
section
/-! DEFINITION. The named operations over the state: one update for each piece of it, reading and
writing registers, the program counter, the call stack, the checked fetch, the timer phase, and taking
a fault. There is no return from a fault (60_exceptions.md R218): only the event `Reset` clears the
latch, and that is `resetWith` in Machine/Events.lean. -/

namespace Sys2Proof.Machine

/-! ### One update for each piece of state -/

/-- `V[x] <- b` (R21). -/
def State.writeV (x : Reg) (b : Byte) (s : State) : State := { s with v := s.v.set x b }

/-- `I <- w` (R23). -/
def State.setI (w : Word) (s : State) : State := { s with i := w }

/-- `DT <- b` (R27). -/
def State.setDt (b : Byte) (s : State) : State := { s with dt := b }

/-- `ST <- b` (R27). -/
def State.setSt (b : Byte) (s : State) : State := { s with st := b }

/-- `pc <- w` (R24). -/
def State.setPc (w : Word) (s : State) : State := { s with pc := w }

/-- The call stack's entries and pointer (R25). -/
def State.setStack (st : StackEntries) (sp : StackPointer) (s : State) : State :=
  { s with stack := st, sp := sp }

/-- Memory as a whole; the operations of Machine/Memory.lean compute it (R30). -/
def State.setMem (m : Memory) (s : State) : State := { s with mem := m }

/-- `Key[k] <- p` (R28). -/
def State.writeKey (k : Reg) (p : Bool) (s : State) : State := { s with key := s.key.set k p }

/-- The fault latch (R29). -/
def State.setFault (f : Option Fault) (s : State) : State := { s with fault := f }

/-- The output ports of the step result (R98). -/
def State.setOut (o : Output) (s : State) : State := { s with out := o }

/-- The random input's port and the count of bytes it has given (R100, log 1). -/
def State.setRnd (r : Byte) (n : Nat) (s : State) : State := { s with rnd := r, draws := n }

/-! ### Registers and the program counter -/

/-- `V[x]` (R8, R21). -/
def State.readV (s : State) (x : Reg) : Byte := s.v[x]

/-- `pc <- pc + 2`, the default end of an instruction (40_step_cycle.md R97). -/
def State.advance (s : State) : State := s.setPc (s.pc + 2#16)

/-- `pc <- pc + 4` where the condition holds, else `pc <- pc + 2` (41_control_flow.md R119). -/
def State.skipIf (c : Bool) (s : State) : State :=
  s.setPc (if c then s.pc + 4#16 else s.pc + 2#16)

/-! ### The call stack (R25) -/

/-- `SP + 1`, at most `STACK_DEPTH`. -/
def spUp (sp : StackPointer) : StackPointer :=
  ⟨min (sp.val + 1) parameters.stackDepth, Nat.lt_succ_of_le (Nat.min_le_right ..)⟩

/-- `SP - 1`, at least 0. -/
def spDown (sp : StackPointer) : StackPointer := ⟨sp.val - 1, by omega⟩

/-- The push of R25: `Stack[SP] <- a; SP <- SP + 1`. CALL checks first that SP < STACK_DEPTH. -/
def State.push (a : Word) (s : State) : State :=
  s.setStack (s.stack.setIfInBounds s.sp.val a) (spUp s.sp)

/-- The most recent live entry, `Stack[SP - 1]`. RET checks first that SP > 0. -/
def State.top (s : State) : Word := s.stack[s.sp.val - 1]?.getD 0#16

/-- The pop of R25: `SP <- SP - 1`. The entry keeps its contents. -/
def State.pop (s : State) : State := s.setStack s.stack (spDown s.sp)

/-! ### Faults (60_exceptions.md R210, R216) -/

/-- The 3-bit value of the latch: 0 while running, else the cause's code (R29, R210). -/
def faultCode : Option Fault → BitVec 3
  | Option.none => 0#3
  | some .invalidOpcode => 1#3
  | some .stackOverflow => 2#3
  | some .stackUnderflow => 3#3
  | some .addressOutOfRange => 4#3

/-- Taking a fault: the latch takes the cause and the result reports neither redraw nor await; nothing
else changes (R216, R217). -/
def State.takeFault (f : Fault) (s : State) : State := (s.setFault (some f)).setOut Output.none

/-- An instruction with a fault condition: the fault where the condition gives one, else the effect.
The condition is evaluated before anything is written (40_step_cycle.md R95). -/
def guarded (c : Option Fault) (effect : State → State) (s : State) : State :=
  match c with
  | some f => s.takeFault f
  | Option.none => effect s

/-! ### Fetch (R94) and the timer phase (R96) -/

/-- The word at `pc`, the byte at the lower address first; none when pc > 0xFFE (R55, R94). -/
def State.fetch (s : State) : Option Word :=
  if s.pc.toNat ≤ 0xFFE then
    some (wordOfBytes (Memory.read s.mem s.pc.toNat) (Memory.read s.mem (s.pc.toNat + 1)))
  else Option.none

/-- A counter one step later: "decremented once per engine step while nonzero" (R27). -/
def countDown (b : Byte) : Byte := if b = 0#8 then 0#8 else b - 1#8

/-- The timer phase: both counters, independently (R96). -/
def State.tick (s : State) : State := (s.setDt (countDown s.dt)).setSt (countDown s.st)

/-- The random input gives the byte `r` to this step (R100). -/
def State.sample (r : Byte) (s : State) : State := s.setRnd r (s.draws + 1)

/-- The result a step starts from: no redraw, no await (R92). -/
def State.clearOut (s : State) : State := s.setOut Output.none

/-- `result.redraw <- 1` (R98). -/
def State.requestRedraw (s : State) : State := s.setOut { s.out with redraw := true }

/-- `result.await <- Some(x)` (R98). -/
def State.awaitKey (x : Reg) (s : State) : State := s.setOut { s.out with await := some x }

end Sys2Proof.Machine
end

