-- ==== Sys2Proof/Machine/Operands.lean ====
section
/-! DEFINITION. The operand forms of the instructions: the addresses through `I` and their range
check, the 12-bit address widened, the jump through V0, the glyph address, the key a register names,
the lowest pressed key, the anchor of a draw. -/

namespace Sys2Proof.Machine

/-- `nnn` widened with zeros to 16 bits (30_encoding.md R72). -/
def zextNNN (nnn : Addr12) : Word := nnn.setWidth 16

/-- A byte widened with zeros to 16 bits (R7). -/
def zextByte (b : Byte) : Word := b.setWidth 16

/-- The effective address `I + offset`, an unbounded natural number (20_memory.md R54, R156). -/
def State.ea (s : State) (offset : Nat) : Nat := s.i.toNat + offset

/-- The range check of an instruction whose last access is at `I + last`: AddressOutOfRange when that
passes 0xFFF (R54, 40_step_cycle.md R95). -/
def rangeFault (s : State) (last : Nat) : Option Fault :=
  if s.ea last > 0xFFF then some .addressOutOfRange else Option.none

/-- The fault condition of CALL: SP = STACK_DEPTH (R113, R212). -/
def callFault (s : State) : Option Fault :=
  if s.sp.val = parameters.stackDepth then some .stackOverflow else Option.none

/-- The fault condition of RET (R111, R213). -/
def retFault (s : State) : Option Fault :=
  if s.sp.val = 0 then some .stackUnderflow else Option.none

/-- The fault condition of a draw of `n` rows: none for n = 0 (R95, R176). -/
def drawFault (n : Reg) (s : State) : Option Fault :=
  if n.val = 0 then Option.none else rangeFault s (n.val - 1)

/-- The target of Bnnn: V0 + nnn in 16 bits (41_control_flow.md R118). -/
def jumpV0Target (s : State) (nnn : Addr12) : Word := zextByte (s.readV 0) + zextNNN nnn

/-- The address of the glyph a byte names: FONT_BASE + 5 × b in 16 bits (43_index_memory.md R152). -/
def glyphAddress (b : Byte) : Word := BitVec.ofNat 16 (parameters.fontBase + b.toNat * 5)

/-- The key a byte names: its low four bits (45_timers_keys.md R196). -/
def keyOf (b : Byte) : Reg := (b.extractLsb' 0 4).toFin

/-- `key(Vx)`: whether the key that register `x` names is pressed (R196). -/
def State.keyPressed (s : State) (x : Reg) : Bool := s.key[keyOf (s.readV x)]

/-- The lowest-numbered pressed key, if any key is pressed (R195, R197). -/
def lowestPressed (key : Vector Bool 16) : Option Reg :=
  (List.finRange 16).find? (fun k => key[k])

/-- The byte that holds a key's number. -/
def keyByte (k : Reg) : Byte := BitVec.ofNat 8 k.val

/-- The anchor's column, Vx mod 64 (44_draw.md R172). -/
def anchorX (b : Byte) : Nat := b.toNat % 64

/-- The anchor's row, Vy mod 32 (R172). -/
def anchorY (b : Byte) : Nat := b.toNat % 32

end Sys2Proof.Machine
end

