-- ==== Sys2Proof/Machine/ControlFlow.lean ====
section
/-! DEFINITION. The control-flow instructions (41_control_flow.md R110 to R119). -/

namespace Sys2Proof.Machine

/-- What a meaning answers: every instruction of this machine answers a next state. -/
abbrev Answer := Host.Outcome State Fault Refusal

/-- SYS nnn, 0nnn: a no-operation (R110). -/
def execSys (_nnn : Addr12) (s : State) : Answer := .next s.advance

/-- RET, 00EE: StackUnderflow when SP = 0, else pop into pc with no extra + 2 (R111). -/
def execRet (s : State) : Answer :=
  .next (guarded (retFault s) (fun t => t.pop.setPc t.top) s)

/-- JP nnn, 1nnn (R112). -/
def execJp (nnn : Addr12) (s : State) : Answer := .next (s.setPc (zextNNN nnn))

/-- CALL nnn, 2nnn: StackOverflow when SP = 16, else push pc + 2 and jump (R113). -/
def execCall (nnn : Addr12) (s : State) : Answer :=
  .next (guarded (callFault s) (fun t => (t.push (t.pc + 2#16)).setPc (zextNNN nnn)) s)

/-- SE Vx, kk, 3xkk (R114). -/
def execSeImm (x : Reg) (kk : Byte) (s : State) : Answer :=
  .next (s.skipIf (decide (s.readV x = kk)))

/-- SNE Vx, kk, 4xkk (R115). -/
def execSneImm (x : Reg) (kk : Byte) (s : State) : Answer :=
  .next (s.skipIf (decide (s.readV x ≠ kk)))

/-- SE Vx, Vy, 5xy0 (R116). -/
def execSeReg (x y : Reg) (s : State) : Answer :=
  .next (s.skipIf (decide (s.readV x = s.readV y)))

/-- SNE Vx, Vy, 9xy0 (R117). -/
def execSneReg (x y : Reg) (s : State) : Answer :=
  .next (s.skipIf (decide (s.readV x ≠ s.readV y)))

/-- JP V0, nnn, Bnnn (R118). -/
def execJpV0 (nnn : Addr12) (s : State) : Answer := .next (s.setPc (jumpV0Target s nnn))

end Sys2Proof.Machine
end

