-- ==== Sys2Proof/Machine/Flags.lean ====
section
/-! DEFINITION. The flag computations, all of them into VF (10_state.md R22): carry, no borrow, the
bit a shift moves out. The result is written first and the flag last (42_alu.md R142). -/

namespace Sys2Proof.Machine

/-- A flag as the byte VF takes: 0x00 or 0x01 (R22). -/
def flagByte (f : Bool) : Byte := if f then 1#8 else 0#8

/-- `V[15] <- 1 if f else 0` (R22). -/
def State.writeFlag (f : Bool) (s : State) : State := s.writeV 15 (flagByte f)

/-- The carry of an addition: a + b > 255 (R136). -/
def carry (a b : Byte) : Bool := decide (a.toNat + b.toNat > 255)

/-- The no-borrow indicator of a - b: a ≥ b (R137, R139). -/
def noBorrow (a b : Byte) : Bool := decide (a.toNat ≥ b.toNat)

/-- The bit a right shift moves out: bit 0 (R138). -/
def shiftedOutRight (a : Byte) : Bool := a.getLsbD 0

/-- The bit a left shift moves out: bit 7 (R140). -/
def shiftedOutLeft (a : Byte) : Bool := a.getLsbD 7

/-- The end of a flag-writing instruction: result to `V[x]`, then the flag to `V[15]`, then pc + 2
(R142). -/
def State.finishFlagged (x : Reg) (result : Byte) (flag : Bool) (s : State) : State :=
  ((s.writeV x result).writeFlag flag).advance

/-- The end of an instruction that writes `V[x]` and no flag: result, then pc + 2 (R143). -/
def State.finish (x : Reg) (result : Byte) (s : State) : State := (s.writeV x result).advance

end Sys2Proof.Machine
end

