-- ==== Sys2Proof/Machine/Alu.lean ====
section
/-! DEFINITION. Register loads, arithmetic, logic, shifts and the random byte (42_alu.md R130 to
R143). Every one ends with pc + 2 and none faults. -/

namespace Sys2Proof.Machine

/-- LD Vx, kk, 6xkk (R130). -/
def execLdImm (x : Reg) (kk : Byte) (s : State) : Answer := .next (s.finish x kk)

/-- ADD Vx, kk, 7xkk: wraps modulo 256, no flag (R131). -/
def execAddImm (x : Reg) (kk : Byte) (s : State) : Answer := .next (s.finish x (s.readV x + kk))

/-- LD Vx, Vy, 8xy0 (R132). -/
def execLdReg (x y : Reg) (s : State) : Answer := .next (s.finish x (s.readV y))

/-- OR Vx, Vy, 8xy1: VF untouched (R133). -/
def execOrReg (x y : Reg) (s : State) : Answer := .next (s.finish x (s.readV x ||| s.readV y))

/-- AND Vx, Vy, 8xy2: VF untouched (R134). -/
def execAndReg (x y : Reg) (s : State) : Answer := .next (s.finish x (s.readV x &&& s.readV y))

/-- XOR Vx, Vy, 8xy3: VF untouched (R135). -/
def execXorReg (x y : Reg) (s : State) : Answer := .next (s.finish x (s.readV x ^^^ s.readV y))

/-- ADD Vx, Vy, 8xy4: VF is the carry (R136). -/
def execAddReg (x y : Reg) (s : State) : Answer :=
  .next (s.finishFlagged x (s.readV x + s.readV y) (carry (s.readV x) (s.readV y)))

/-- SUB Vx, Vy, 8xy5: VF is the no-borrow of Vx - Vy (R137). -/
def execSubReg (x y : Reg) (s : State) : Answer :=
  .next (s.finishFlagged x (s.readV x - s.readV y) (noBorrow (s.readV x) (s.readV y)))

/-- SHR Vx, 8xy6: in place, `y` not used; VF is the bit shifted out (R138). -/
def execShr (x _y : Reg) (s : State) : Answer :=
  .next (s.finishFlagged x (s.readV x >>> 1) (shiftedOutRight (s.readV x)))

/-- SUBN Vx, Vy, 8xy7: VF is the no-borrow of Vy - Vx (R139). -/
def execSubnReg (x y : Reg) (s : State) : Answer :=
  .next (s.finishFlagged x (s.readV y - s.readV x) (noBorrow (s.readV y) (s.readV x)))

/-- SHL Vx, 8xyE: in place, `y` not used; VF is the bit shifted out (R140). -/
def execShl (x _y : Reg) (s : State) : Answer :=
  .next (s.finishFlagged x (s.readV x <<< 1) (shiftedOutLeft (s.readV x)))

/-- RND Vx, kk, Cxkk: the step's random byte AND kk (R141, R100). -/
def execRnd (x : Reg) (kk : Byte) (s : State) : Answer := .next (s.finish x (s.rnd &&& kk))

end Sys2Proof.Machine
end

