-- ==== Sys2Proof/Machine/Draw.lean ====
section
/-! DEFINITION. The display instructions and the sprite blitter (44_draw.md R170 to R177). A pixel is
one bit of the framebuffer bytes (20_memory.md R53). -/

namespace Sys2Proof.Machine

/-- The address of the byte that holds pixel index `p` (R53). -/
def pixelAddr (p : Nat) : Nat := parameters.fbBase + p / 8

/-- The bit of that byte, bit 7 the leftmost (R53). -/
def pixelBit (p : Nat) : Nat := 7 - p % 8

/-- Pixel `p` of the framebuffer. -/
def pixel (m : Memory) (p : Nat) : Bool := (Memory.read m (pixelAddr p)).getLsbD (pixelBit p)

/-- The pixel index of sprite row `r`, column `c`, for the anchor (x0, y0) (R173). -/
def pixelIndex (x0 y0 r c : Nat) : Nat :=
  match parameters.drawWrap with
  | .linear => ((y0 + r) * 64 + x0 + c) % 2048
  | .perAxis => ((y0 + r) % 32) * 64 + (x0 + c) % 64

/-- `Mem[a][m] <- old XOR s` (R171). -/
def xorPixel (m : Memory) (p : Nat) (s : Bool) : Memory :=
  Memory.write m (pixelAddr p)
    (Memory.read m (pixelAddr p) ^^^ (if s then BitVec.twoPow 8 (pixelBit p) else 0#8))

/-- Column `c` of a sprite row's byte: bit 7 is the leftmost pixel (R171). -/
def spriteBit (b : Byte) (c : Nat) : Bool := b.getLsbD (7 - c)

/-- The first `k` pixels of sprite row `r` with byte `b`: memory and the collision so far (R171, R174).
A collision is a set sprite bit over a set pixel. -/
def drawPixels (x0 y0 r : Nat) (b : Byte) : Nat → Memory × Bool → Memory × Bool
  | 0, mc => mc
  | k + 1, mc =>
    let before := drawPixels x0 y0 r b k mc
    let p := pixelIndex x0 y0 r k
    (xorPixel before.1 p (spriteBit b k), before.2 || (spriteBit b k && pixel before.1 p))

/-- The first `k` rows of the sprite at `I`: the byte of a row is read after the rows before it are
drawn (R175). -/
def drawRows (addr x0 y0 : Nat) (m : Memory) : Nat → Memory × Bool
  | 0 => (m, false)
  | k + 1 =>
    let before := drawRows addr x0 y0 m k
    drawPixels x0 y0 k (Memory.read before.1 (addr + k)) 8 before

/-- The whole draw: the anchor is read before VF is written (R172). -/
def drawSprite (x y n : Reg) (s : State) : Memory × Bool :=
  drawRows (s.ea 0) (anchorX (s.readV x)) (anchorY (s.readV y)) s.mem n.val

/-- The first `k` framebuffer bytes set to zero (R170). -/
def clearBytes (m : Memory) : Nat → Memory
  | 0 => m
  | k + 1 => Memory.write (clearBytes m k) (parameters.fbBase + k) 0#8

/-- CLS, 00E0: all 256 framebuffer bytes to zero, redraw, VF untouched (R170). -/
def execCls (s : State) : Answer :=
  .next ((s.setMem (clearBytes s.mem 256)).requestRedraw).advance

/-- The effect of a draw: memory, VF the collision, redraw, pc + 2 (R171, R174, R176). -/
def State.afterDraw (mc : Memory × Bool) (s : State) : State :=
  (((s.setMem mc.1).writeFlag mc.2).requestRedraw).advance

/-- DRW Vx, Vy, n, Dxyn: AddressOutOfRange when n ≥ 1 and I + n - 1 > 0xFFF, else the draw (R171). -/
def execDrw (x y n : Reg) (s : State) : Answer :=
  .next (guarded (drawFault n s) (fun t => t.afterDraw (drawSprite x y n t)) s)

end Sys2Proof.Machine
end

