-- ==== Sys2Proof/Machine/IndexMemory.lean ====
section
/-! DEFINITION. The index register and the memory instructions (43_index_memory.md R150 to R156). The
three that reach memory check their whole range first, and none changes `I`. -/

namespace Sys2Proof.Machine

/-- LD I, nnn, Annn (R150). -/
def execLdI (nnn : Addr12) (s : State) : Answer := .next (s.setI (zextNNN nnn)).advance

/-- ADD I, Vx, Fx1E: 16 bits, not masked, VF untouched (R151). -/
def execAddI (x : Reg) (s : State) : Answer := .next (s.setI (s.i + zextByte (s.readV x))).advance

/-- LD F, Vx, Fx29 (R152). -/
def execLdF (x : Reg) (s : State) : Answer := .next (s.setI (glyphAddress (s.readV x))).advance

/-- The decimal digits of a byte, the hundreds first (R153). -/
def bcdDigits (b : Byte) : List Byte :=
  [BitVec.ofNat 8 (b.toNat / 100), BitVec.ofNat 8 (b.toNat / 10 % 10), BitVec.ofNat 8 (b.toNat % 10)]

/-- LD B, Vx, Fx33: AddressOutOfRange when I + 2 > 0xFFF, else three digits at I, I + 1, I + 2 (R153). -/
def execLdB (x : Reg) (s : State) : Answer :=
  .next (guarded (rangeFault s 2)
    (fun t => (t.setMem (Memory.writeList t.mem (t.ea 0) (bcdDigits (t.readV x)))).advance) s)

/-- The first `k` registers, stored in ascending order at `I` and up (R154). -/
def storeRegs (s : State) : Nat → Memory
  | 0 => s.mem
  | k + 1 => Memory.write (storeRegs s k) (s.ea k) (s.readV (Fin.ofNat 16 k))

/-- LD [I], Vx, Fx55: AddressOutOfRange when I + x > 0xFFF, else V0..Vx to memory (R154). -/
def execLdMemVx (x : Reg) (s : State) : Answer :=
  .next (guarded (rangeFault s x.val) (fun t => (t.setMem (storeRegs t (x.val + 1))).advance) s)

/-- The state with the first `k` registers loaded in ascending order from `I` and up (R155). -/
def loadRegs (s : State) : Nat → State
  | 0 => s
  | k + 1 => (loadRegs s k).writeV (Fin.ofNat 16 k) (Memory.read s.mem (s.ea k))

/-- LD Vx, [I], Fx65: AddressOutOfRange when I + x > 0xFFF, else V0..Vx from memory (R155). -/
def execLdVxMem (x : Reg) (s : State) : Answer :=
  .next (guarded (rangeFault s x.val) (fun t => (loadRegs t (x.val + 1)).advance) s)

end Sys2Proof.Machine
end

