-- ==== Sys2Proof/Machine/TimersKeys.lean ====
section
/-! DEFINITION. The timer and key instructions (45_timers_keys.md R190 to R197). They run after the
step's timer phase (40_step_cycle.md R96). -/

namespace Sys2Proof.Machine

/-- LD Vx, DT, Fx07 (R190). -/
def execLdVxDt (x : Reg) (s : State) : Answer := .next (s.finish x s.dt)

/-- LD DT, Vx, Fx15 (R191). -/
def execLdDtVx (x : Reg) (s : State) : Answer := .next (s.setDt (s.readV x)).advance

/-- LD ST, Vx, Fx18 (R192). -/
def execLdStVx (x : Reg) (s : State) : Answer := .next (s.setSt (s.readV x)).advance

/-- SKP Vx, Ex9E (R193). -/
def execSkp (x : Reg) (s : State) : Answer := .next (s.skipIf (s.keyPressed x))

/-- SKNP Vx, ExA1 (R194). -/
def execSknp (x : Reg) (s : State) : Answer := .next (s.skipIf (!s.keyPressed x))

/-- LD Vx, K, Fx0A: the lowest pressed key to Vx and pc + 2, or, with no key pressed, the await signal
and pc unmoved (R195, R197). -/
def execLdVxK (x : Reg) (s : State) : Answer :=
  match lowestPressed s.key with
  | some k => .next (s.finish x (keyByte k))
  | Option.none => .next (s.awaitKey x)

end Sys2Proof.Machine
end

