-- ==== Sys2Proof/Machine/Cycle.lean ====
section
/-! DEFINITION. The step cycle (40_step_cycle.md R92 to R97): the halted check, the fetch, the decode,
the fault check, the timer phase and the execution, in the order of R92. -/

namespace Sys2Proof.Machine

/-- The fault condition of an instruction, the table of R95. -/
def faultCondition (i : Instr) (s : State) : Option Fault :=
  match i with
  | .call _ => callFault s
  | .ret => retFault s
  | .drw _ _ n => drawFault n s
  | .ldB _ => rangeFault s 2
  | .ldMemVx x => rangeFault s x.val
  | .ldVxMem x => rangeFault s x.val
  | .cls | .sys _ | .jp _ | .seImm _ _ | .sneImm _ _ | .seReg _ _ | .ldImm _ _ | .addImm _ _
  | .ldReg _ _ | .orReg _ _ | .andReg _ _ | .xorReg _ _ | .addReg _ _ | .subReg _ _ | .shr _ _
  | .subnReg _ _ | .shl _ _ | .sneReg _ _ | .ldI _ | .jpV0 _ | .rnd _ _ | .skp _ | .sknp _
  | .ldVxDt _ | .ldVxK _ | .ldDtVx _ | .ldStVx _ | .addI _ | .ldF _ => Option.none

/-- The state an instruction without a fault is executed on: the random byte is on its port, and the
timers have ticked where `TIMER_PHASE` is `before` (R92 point 5, R96, R100). -/
def prepare (r : Byte) (s : State) : State :=
  match parameters.timerPhase with
  | .before => (s.sample r).tick
  | .after => s.sample r

/-- The timer phase after the effect, where `TIMER_PHASE` is `after`. -/
def settle (o : Answer) : Answer :=
  match parameters.timerPhase with
  | .before => o
  | .after =>
    match o with
    | .next t => .next t.tick
    | .fault f => .fault f
    | .refused q => .refused q

/-- Points (4) to (6) of R92: an instruction whose fault condition holds takes its fault on the state
as it stands; any other is executed after the timer phase. -/
def runInstr (r : Byte) (i : Instr) (s : State) : Answer :=
  match faultCondition i s with
  | some _ => exec i s
  | Option.none => settle (exec i (prepare r s))

/-- Points (3) to (6) of R92 for the fetched word: an invalid word takes InvalidOpcode (R77, R211). -/
def runWord (r : Byte) (w : Word) (s : State) : Answer :=
  match decode w with
  | .instr i => runInstr r i s
  | .invalid _ => .next (s.takeFault .invalidOpcode)

/-- `Step(r)` of R92. A halted machine changes nothing (R93); a fetch with pc > 0xFFE takes
AddressOutOfRange (R94). -/
def stepOn (r : Byte) (s : State) : Answer :=
  match s.fault with
  | some _ => .next s.clearOut
  | Option.none =>
    match s.fetch with
    | Option.none => .next (s.clearOut.takeFault .addressOutOfRange)
    | some w => runWord r w s.clearOut

/-- DESIGN CHOICE (log 1): `Step(r)` with the free byte the environment gives at this point. -/
def freeStep (s : State) : Answer := stepOn (Config.randomByte s.draws) s

/-- The state with a 16-bit instruction word where the next step fetches it: the latch cleared, pc moved
to PROG_BASE only where no word can be fetched at it, and the two bytes stored (log 13). -/
def placeWord (s : State) (bytes : List Byte) : State :=
  let pc := if s.pc.toNat ≤ 0xFFE then s.pc else BitVec.ofNat 16 parameters.progBase
  ((s.setFault Option.none).setPc pc).setMem (Memory.writeList s.mem pc.toNat bytes)

end Sys2Proof.Machine
end

