-- ==== Sys2Proof/Machine/Step.lean ====
section
/-! DEFINITION. One step of the machine, and the placing of a word where the next step fetches it. -/

namespace Sys2Proof.Machine

/-- One step: `Step(r)` of 40_step_cycle.md R92 for a byte `r` that nothing constrains (R100). -/
def step (s : State) : Host.Outcome State Fault Refusal := freeStep s

/-- `s` with the instruction whose bits are `w`, numbered as spec/opcode_table.json numbers them, placed
where `step` fetches its next instruction. It stands for the ROM that `Reset(rom)` loads (log 13). -/
def State.withFetchWord (s : State) (nbits w : Nat) : State := placeWord s (tableBytes nbits w)

end Sys2Proof.Machine
end

