-- ==== Sys2Proof/Machine/Events.lean ====
section
/-! DEFINITION. The host's side of the machine: the three events of 40_step_cycle.md R90, the fold of a
trace of them, and the output ports of R91. -/

namespace Sys2Proof.Machine

/-- `KeyEvent(k, pressed)`: sets `Key[k]` and changes nothing else, in every state (R99). -/
def keyEvent (k : Reg) (pressed : Bool) (s : State) : State := s.writeKey k pressed

/-- `MAX_ROM`: 4096 - PROG_BASE (00_scope.md R4). -/
def maxRom : Nat := 4096 - parameters.progBase

/-- The state after `Reset(rom)` for a ROM of legal length (70_reset_and_hazards.md R240). -/
def resetState (rom : List Byte) : State :=
  State.reset.setMem (Memory.writeList State.reset.mem parameters.progBase rom)

/-- `Reset(rom)`: a ROM longer than `MAX_ROM` is refused (R241, log 15). The count of random bytes goes
on, since the environment that gives them is not reset (log 10). -/
def resetWith (rom : List Byte) (s : State) : Answer :=
  if rom.length ≤ maxRom then .next ((resetState rom).setRnd 0#8 s.draws) else .refused .romTooLong

/-- The events of R90. -/
inductive Event where
  /-- `Reset(rom)` -/
  | reset (rom : List Byte)
  /-- `Step(r)` -/
  | step (r : Byte)
  /-- `KeyEvent(k, pressed)` -/
  | key (k : Reg) (pressed : Bool)
  deriving DecidableEq, Repr

/-- One event (R90). -/
def runEvent (e : Event) (s : State) : Answer :=
  match e with
  | .reset rom => resetWith rom s
  | .step r => stepOn r s
  | .key k p => .next (keyEvent k p s)

/-- A trace: "the state after a trace is the fold of the event functions over it" (R90). -/
def runEvents : List Event → State → Answer
  | [], s => .next s
  | e :: es, s =>
    match runEvent e s with
    | .next t => runEvents es t
    | .fault f => .fault f
    | .refused r => .refused r

/-- A key event presented with a step is applied first (R91). -/
def keyThenStep (k : Reg) (pressed : Bool) (r : Byte) : List Event := [.key k pressed, .step r]

/-! ### The output ports (R91) -/

/-- `fb_data` for the offset on `fb_addr`: a read of the framebuffer without side effect. -/
def State.fbData (s : State) (fbAddr : Byte) : Byte :=
  Memory.read s.mem (parameters.fbBase + fbAddr.toNat)

/-- The port `fault`, the 3-bit value of the latch. -/
def State.faultPort (s : State) : BitVec 3 := faultCode s.fault

/-- The port `st_out`. -/
def State.stOut (s : State) : Byte := s.st

end Sys2Proof.Machine
end

