-- ==== Sys2Proof/Safety.lean ====
section
/-! DEFINITION. The terms claims are stated in: the invariants of the state, a running machine, the
fault outcome of a step, and what an instruction leaves unchanged. -/

namespace Sys2Proof.Safety

open Sys2Proof.Machine

/-- Memory is in its canonical form. -/
def Canonical (s : State) : Prop := Memory.wf s.mem = true

/-- The bounds of 10_state.md R24 and 41_control_flow.md R111: `pc` is at most 0x10FE and every stack
entry at most 0x1000. -/
def PcBounded (s : State) : Prop :=
  s.pc.toNat ≤ 0x10FE ∧ ∀ j : Fin parameters.stackDepth, s.stack[j].toNat ≤ 0x1000

/-- The machine is not halted (R9, R29). -/
def Running (s : State) : Prop := s.fault = none

/-- A halted machine's result reports neither redraw nor a key awaited (R93, R216). -/
def HaltedIsQuiet (s : State) : Prop := s.fault ≠ none → s.out = Output.none

/-- The invariant of the machine: canonical memory, bounded pc and stack entries, and a quiet result
when halted. -/
structure Inv (s : State) : Prop where
  canonical : Canonical s
  bounded : PcBounded s
  quiet : HaltedIsQuiet s

/-- The view of a step's answer in which a fault is an outcome (60_exceptions.md R216): a next state
whose latch is set counts as that fault. -/
def outcomeOf : Host.Outcome State Fault Refusal → Host.Outcome State Fault Refusal
  | .next t => match t.fault with
    | some f => .fault f
    | Option.none => .next t
  | .fault f => .fault f
  | .refused r => .refused r

/-- `step` does not fault on `s` and leaves the machine running. -/
def StepSafe (s : State) : Prop := ∃ t, outcomeOf (step s) = .next t

/-! ### What stays unchanged -/

/-- Every byte of memory reads as before. -/
def SameMem (s t : State) : Prop := ∀ a, Memory.read t.mem a = Memory.read s.mem a

/-- Every byte of memory outside the `len` bytes from `base` reads as before. -/
def SameMemOutside (base len : Nat) (s t : State) : Prop :=
  ∀ a, (a < base ∨ base + len ≤ a) → Memory.read t.mem a = Memory.read s.mem a

/-- Every general register reads as before. -/
def SameV (s t : State) : Prop := ∀ r, t.readV r = s.readV r

/-- Every general register but `x` reads as before. -/
def SameVBut (x : Reg) (s t : State) : Prop := ∀ r, r ≠ x → t.readV r = s.readV r

/-- The call stack and its pointer are as before. -/
def SameStack (s t : State) : Prop := t.stack = s.stack ∧ t.sp = s.sp

/-- Both timers are as before. -/
def SameTimers (s t : State) : Prop := t.dt = s.dt ∧ t.st = s.st

/-- What no instruction writes is as before: the key latch, the fault latch, the random input's port and
count. -/
def SameHost (s t : State) : Prop :=
  t.key = s.key ∧ t.fault = s.fault ∧ t.rnd = s.rnd ∧ t.draws = s.draws

/-- Nothing but general registers and `pc` differs. -/
def OnlyVPc (s t : State) : Prop :=
  SameMem s t ∧ t.i = s.i ∧ SameStack s t ∧ SameTimers s t ∧ SameHost s t ∧ t.out = s.out

/-- Nothing but `pc` differs. -/
def OnlyPc (s t : State) : Prop := SameV s t ∧ OnlyVPc s t

/-- Nothing but `pc` and the call stack differs. -/
def OnlyStackPc (s t : State) : Prop :=
  SameV s t ∧ SameMem s t ∧ t.i = s.i ∧ SameTimers s t ∧ SameHost s t ∧ t.out = s.out

/-- Nothing but `pc` and `I` differs. -/
def OnlyIPc (s t : State) : Prop :=
  SameV s t ∧ SameMem s t ∧ SameStack s t ∧ SameTimers s t ∧ SameHost s t ∧ t.out = s.out

/-- Nothing but `pc` and memory differs. -/
def OnlyMemPc (s t : State) : Prop :=
  SameV s t ∧ t.i = s.i ∧ SameStack s t ∧ SameTimers s t ∧ SameHost s t ∧ t.out = s.out

/-- The state of a machine that took the fault `f` on `s`: the latch and the cleared result, nothing
else (R216, R217). -/
def faulted (f : Fault) (s : State) : State := { s with fault := some f, out := Output.none }

/-! ### What the spec's tables say -/

/-- The machine runs and the word at `pc` is the instruction `i`. -/
def Fetches (s : State) (i : Instr) : Prop :=
  Running s ∧ s.pc.toNat ≤ 0xFFE ∧
    decode (Memory.read s.mem s.pc.toNat ++ Memory.read s.mem (s.pc.toNat + 1)) = .instr i

/-- The invalid words of 30_encoding.md R77. -/
def InvalidWord (w : Word) : Prop :=
  let cls := w.toNat / 4096
  let n := w.toNat % 16
  let kk := w.toNat % 256
  (cls = 5 ∧ n ≠ 0) ∨
  (cls = 8 ∧ (n = 8 ∨ n = 9 ∨ n = 0xA ∨ n = 0xB ∨ n = 0xC ∨ n = 0xD ∨ n = 0xF)) ∨
  (cls = 9 ∧ n ≠ 0) ∨
  (cls = 0xE ∧ kk ≠ 0x9E ∧ kk ≠ 0xA1) ∨
  (cls = 0xF ∧ kk ≠ 0x07 ∧ kk ≠ 0x0A ∧ kk ≠ 0x15 ∧ kk ≠ 0x18 ∧ kk ≠ 0x1E ∧ kk ≠ 0x29 ∧ kk ≠ 0x33 ∧
    kk ≠ 0x55 ∧ kk ≠ 0x65)

/-- The fault table of 40_step_cycle.md R95, over natural numbers. -/
def tableFault (i : Instr) (s : State) : Option Fault :=
  match i with
  | .call _ => if s.sp.val = 16 then some .stackOverflow else Option.none
  | .ret => if s.sp.val = 0 then some .stackUnderflow else Option.none
  | .drw _ _ n =>
    if 1 ≤ n.val ∧ s.i.toNat + n.val - 1 > 0xFFF then some .addressOutOfRange else Option.none
  | .ldB _ => if s.i.toNat + 2 > 0xFFF then some .addressOutOfRange else Option.none
  | .ldMemVx x => if s.i.toNat + x.val > 0xFFF then some .addressOutOfRange else Option.none
  | .ldVxMem x => if s.i.toNat + x.val > 0xFFF then some .addressOutOfRange else Option.none
  | _ => Option.none

/-- The flag an instruction of R22's table writes, but for Dxyn. -/
def flagOf (i : Instr) (s : State) : Option Bool :=
  match i with
  | .addReg x y => some (decide (255 < (s.readV x).toNat + (s.readV y).toNat))
  | .subReg x y => some (decide ((s.readV y).toNat ≤ (s.readV x).toNat))
  | .shr x _ => some ((s.readV x).getLsbD 0)
  | .subnReg x y => some (decide ((s.readV x).toNat ≤ (s.readV y).toNat))
  | .shl x _ => some ((s.readV x).getLsbD 7)
  | _ => Option.none

/-- Dxyn. -/
def isDraw : Instr → Bool
  | .drw _ _ _ => true
  | _ => false

/-- The instruction names VF as its destination `x` (R22). -/
def namesVF : Instr → Bool
  | .ldImm x _ | .addImm x _ | .ldReg x _ | .orReg x _ | .andReg x _ | .xorReg x _ | .rnd x _
  | .ldVxDt x | .ldVxK x | .ldVxMem x => decide (x.val = 15)
  | _ => false

/-- The instructions that write general registers (10_state.md R20, column "written by"). -/
def writesV : Instr → Bool
  | .ldImm _ _ | .addImm _ _ | .ldReg _ _ | .orReg _ _ | .andReg _ _ | .xorReg _ _ | .addReg _ _
  | .subReg _ _ | .shr _ _ | .subnReg _ _ | .shl _ _ | .rnd _ _ | .drw _ _ _ | .ldVxDt _ | .ldVxK _
  | .ldVxMem _ => true
  | _ => false

/-- The instructions that write `I` (R20, R23). -/
def writesI : Instr → Bool
  | .ldI _ | .addI _ | .ldF _ => true
  | _ => false

/-- The instructions that write the call stack and its pointer (R20, R25). -/
def writesStack : Instr → Bool
  | .call _ | .ret => true
  | _ => false

/-- The instructions that write memory (R20). -/
def writesMem : Instr → Bool
  | .cls | .drw _ _ _ | .ldB _ | .ldMemVx _ => true
  | _ => false

/-- The instruction that writes `DT` (R20). -/
def writesDt : Instr → Bool
  | .ldDtVx _ => true
  | _ => false

/-- The instruction that writes `ST` (R20). -/
def writesSt : Instr → Bool
  | .ldStVx _ => true
  | _ => false

/-- `DT` after a step that executes `i`: one lower, unless `i` writes it (40_step_cycle.md R96). -/
def dtAfter (i : Instr) (s : State) : Nat :=
  match i with
  | .ldDtVx x => (s.readV x).toNat
  | _ => s.dt.toNat - 1

/-- `ST` after a step that executes `i` (R96). -/
def stAfter (i : Instr) (s : State) : Nat :=
  match i with
  | .ldStVx x => (s.readV x).toNat
  | _ => s.st.toNat - 1

/-- Where `pc` goes after an instruction that does not fault (10_state.md R24, 40_step_cycle.md R97). -/
def nextPc (i : Instr) (s : State) : Word :=
  match i with
  | .jp nnn => nnn.setWidth 16
  | .call nnn => nnn.setWidth 16
  | .ret => s.stack[s.sp.val - 1]?.getD 0#16
  | .jpV0 nnn => (s.readV 0).setWidth 16 + nnn.setWidth 16
  | .seImm x kk => if s.readV x = kk then s.pc + 4#16 else s.pc + 2#16
  | .sneImm x kk => if s.readV x = kk then s.pc + 2#16 else s.pc + 4#16
  | .seReg x y => if s.readV x = s.readV y then s.pc + 4#16 else s.pc + 2#16
  | .sneReg x y => if s.readV x = s.readV y then s.pc + 2#16 else s.pc + 4#16
  | .skp x => if s.keyPressed x then s.pc + 4#16 else s.pc + 2#16
  | .sknp x => if s.keyPressed x then s.pc + 2#16 else s.pc + 4#16
  | .ldVxK _ => if ∃ k : Reg, s.key[k] = true then s.pc + 2#16 else s.pc
  | _ => s.pc + 2#16

/-- Sprite row `k` at the anchor (x0, y0), its byte read at `addr + k` from `m`, takes `m` to `m'`: a
pixel a set sprite bit lies on is turned over, every other pixel and every byte outside the framebuffer
is as before (44_draw.md R171, R173). -/
def RowDrawn (addr x0 y0 k : Nat) (m m' : Memory) : Prop :=
  (∀ p, p < 2048 →
    ((∃ c, c < 8 ∧ (Memory.read m (addr + k)).getLsbD (7 - c) = true ∧
        p = ((y0 + k) * 64 + x0 + c) % 2048) → pixel m' p = !pixel m p) ∧
    ((¬ ∃ c, c < 8 ∧ (Memory.read m (addr + k)).getLsbD (7 - c) = true ∧
        p = ((y0 + k) * 64 + x0 + c) % 2048) → pixel m' p = pixel m p)) ∧
  (∀ a, (a < parameters.fbBase ∨ parameters.fbBase + 256 ≤ a) → Memory.read m' a = Memory.read m a)

/-- The sprite rows of DRW x y n on `s`, one after the other: `ms k` is memory after the first `k` rows,
and row `k` reads its byte from `ms k` (R171, R172, R175). -/
def RowsDrawn (x y n : Reg) (s : State) (ms : Nat → Memory) : Prop :=
  ms 0 = s.mem ∧
    ∀ k, k < n.val →
      RowDrawn s.i.toNat ((s.readV x).toNat % 64) ((s.readV y).toNat % 32) k (ms k) (ms (k + 1))

/-- Some set sprite bit of those rows lies on a pixel that is set when its row is drawn, so the draw turns
it off (10_state.md R22, 44_draw.md R174). -/
def Collides (x y n : Reg) (s : State) (ms : Nat → Memory) : Prop :=
  ∃ k c, k < n.val ∧ c < 8 ∧ (Memory.read (ms k) (s.i.toNat + k)).getLsbD (7 - c) = true ∧
    pixel (ms k) ((((s.readV y).toNat % 32 + k) * 64 + (s.readV x).toNat % 64 + c) % 2048) = true

/-- The operands of `i` are the fields of the word `w` that the pattern of `i` names
(30_encoding.md R71, R75). -/
def OperandsAre (i : Instr) (w : Word) : Prop :=
  match i with
  | .cls | .ret => True
  | .sys nnn | .jp nnn | .call nnn | .ldI nnn | .jpV0 nnn => nnn = opNNN w
  | .seImm x kk | .sneImm x kk | .ldImm x kk | .addImm x kk | .rnd x kk => x = opX w ∧ kk = opKK w
  | .seReg x y | .sneReg x y | .ldReg x y | .orReg x y | .andReg x y | .xorReg x y | .addReg x y
  | .subReg x y | .shr x y | .subnReg x y | .shl x y => x = opX w ∧ y = opY w
  | .drw x y n => x = opX w ∧ y = opY w ∧ n = opN w
  | .skp x | .sknp x | .ldVxDt x | .ldVxK x | .ldDtVx x | .ldStVx x | .addI x | .ldF x | .ldB x
  | .ldMemVx x | .ldVxMem x => x = opX w

end Sys2Proof.Safety
end

