-- ==== Sys2Proof/Certificates/Slice0/Obligations.lean ====
section
/-! DEFINITION. The statements about the machine, each made from the rules of spec/ its entry in
OBLIGATIONS.json cites. -/

open Sys2Proof Sys2Proof.Machine Sys2Proof.Safety

/-- For any two bytes b0, b1 fetched in this order, the decoder's fields are class = b0[7:4], x =
b0[3:0], y = b1[7:4], n = b1[3:0], kk = b1, nnn = b0[3:0] ∥ b1; kk = y ∥ n and nnn = x ∥ kk. The
operands of every word that decodes are the fields its pattern names, and two words that decode to
the same row with the same named fields are the same instruction, whatever else they hold. The word
A22A is LD I, 0x22A and 6005 is LD V0, 5. (Stated: R71.) -/
def Obligations.FieldsComeFromTheFetchedBytes : Prop :=
  (∀ b0 b1 : Byte,
    (opClass (wordOfBytes b0 b1)).toNat = b0.toNat / 16 ∧
    (opX (wordOfBytes b0 b1)).val = b0.toNat % 16 ∧
    (opY (wordOfBytes b0 b1)).val = b1.toNat / 16 ∧
    (opN (wordOfBytes b0 b1)).val = b1.toNat % 16 ∧
    opKK (wordOfBytes b0 b1) = b1 ∧
    (opNNN (wordOfBytes b0 b1)).toNat = b0.toNat % 16 * 256 + b1.toNat ∧
    opKK (wordOfBytes b0 b1) = nibble (opY (wordOfBytes b0 b1)) ++ nibble (opN (wordOfBytes b0 b1)) ∧
    opNNN (wordOfBytes b0 b1) = nibble (opX (wordOfBytes b0 b1)) ++ opKK (wordOfBytes b0 b1)) ∧
    (∀ (w : Word) (i : Instr), decode w = .instr i → OperandsAre i w) ∧
    (∀ (w u : Word) (i j : Instr), decode w = .instr i → decode u = .instr j →
      i.rowNumber = j.rowNumber → OperandsAre i u → i = j) ∧
    decodeBytes [0xA2#8, 0x2A#8] = .instr (.ldI 0x22A#12) ∧
    decodeBytes [0x60#8, 0x05#8] = .instr (.ldImm 0 0x05#8)

/-- The words 2ABC, 3A42, 81F4, 8F0E, F11E, F265, D122, EFA1, F30A and 0123 decode to the instructions
the patterns of the opcode map name for them, and 8128 and 5121 to none. That 5121 is invalid is the
spec's own decision D17; the names of rejected words are the model's (log 17), so the statement says
only that there is one. (Derived: 30_encoding.md section 2, 30_encoding.md section 3,
92_eei_decisions.md D17.) -/
def Obligations.SampleWordsDecodeAsTheirPatterns : Prop :=
  decode 0x2ABC#16 = .instr (.call 0xABC#12) ∧
    decode 0x3A42#16 = .instr (.seImm 10 0x42#8) ∧
    decode 0x81F4#16 = .instr (.addReg 1 15) ∧
    decode 0x8F0E#16 = .instr (.shl 15 0) ∧
    decode 0xF11E#16 = .instr (.addI 1) ∧
    decode 0xF265#16 = .instr (.ldVxMem 2) ∧
    decode 0xD122#16 = .instr (.drw 1 2 2) ∧
    decode 0xEFA1#16 = .instr (.sknp 15) ∧
    decode 0xF30A#16 = .instr (.ldVxK 3) ∧
    decode 0x0123#16 = .instr (.sys 0x123#12) ∧
    (∃ e, decode 0x8128#16 = .invalid e) ∧
    (∃ e, decode 0x5121#16 = .invalid e)

/-- For every well-formed instruction, with every operand at every value its field admits, decoding its
word gives the instruction back. (Derived: 30_encoding.md section 2, 30_encoding.md section 1.) -/
def Obligations.DecodingAnEncodedInstructionGivesItBack : Prop :=
  ∀ i : Instr, i.wellFormed = true → decode (encode i) = .instr i

/-- If a word decodes to an instruction, the instruction is well-formed and its encoding is that word:
no bit of a valid word is dropped, the ignored field y of SHR and SHL included. (Derived:
30_encoding.md section 2, 30_encoding.md section 3.) -/
def Obligations.EncodingADecodedInstructionGivesTheWordBack : Prop :=
  ∀ (w : Word) (i : Instr), decode w = .instr i → i.wellFormed = true ∧ encode i = w

/-- For every word and each of the 35 rows, the word AND the row's mask equals the row's match value
(and, for SYS, neither CLS nor RET matches) exactly when the word decodes to an instruction of that
row. (Stated: R75.) -/
def Obligations.OpcodeMapRowsAreExact : Prop :=
  ∀ (w : Word) (k : Fin 35),
    (w &&& (opcodeRows.getD k.val ⟨0#16, 1#16⟩).mask = (opcodeRows.getD k.val ⟨0#16, 1#16⟩).bits ∧
      (k.val = 2 → w ≠ 0x00E0#16 ∧ w ≠ 0x00EE#16)) ↔
    ∃ i : Instr, decode w = .instr i ∧ i.rowNumber = k.val + 1

/-- A word decodes to Invalid exactly when it is one of 5xy1 to 5xyF, 8xy8 to 8xyD, 8xyF, 9xy1 to 9xyF,
Exkk with kk other than 9E and A1, or Fxkk with kk other than the nine defined. That 5xyN and 9xyN
are invalid is the spec's own decision D17. (Derived: 30_encoding.md section 3, 92_eei_decisions.md
D17.) -/
def Obligations.InvalidWordsAreExactlyThoseOfTheTable : Prop :=
  ∀ w : Word, (∃ r, decode w = .invalid r) ↔ InvalidWord w

/-- When the machine runs, pc ≤ 0xFFE and the two bytes at pc (the lower address first) decode to i: if
the fault condition of i does not hold, step is exec i on the state with both counters one lower
where nonzero, the result cleared and the free random byte on its port; if it holds, step is exec i
on the state as it stands with the result cleared. The timer phase before the effect, and no tick in
a faulting step, are the spec's own decisions D3 and D5. That the byte is a free value taken in
every step that executes an instruction, and that a counter of the bytes goes up by one there, is
the model's choice (log 1); that the result is held in the state is too (log 3). (Derived:
40_step_cycle.md section 2, 92_eei_decisions.md D3, 92_eei_decisions.md D5.) -/
def Obligations.StepRunsTheDecodedInstruction : Prop :=
  ∀ (s : State) (i : Instr), Fetches s i →
    (faultCondition i s = none →
      step s = exec i { s with
        dt := if s.dt = 0#8 then 0#8 else s.dt - 1#8
        st := if s.st = 0#8 then 0#8 else s.st - 1#8
        out := Output.none
        rnd := Config.randomByte s.draws
        draws := s.draws + 1 }) ∧
    (faultCondition i s ≠ none → step s = exec i { s with out := Output.none })

/-- If the fault latch is set, a step answers a next state that differs at most in the result's ports,
which report no redraw and no await; where they already did so the state is the same. (Decisions D4
and D6 of the spec.) (Derived: 40_step_cycle.md section 2, 92_eei_decisions.md D4,
92_eei_decisions.md D6.) -/
def Obligations.HaltedStepChangesNothing : Prop :=
  ∀ (r : Byte) (s : State), ¬ Running s →
    (∃ t, stepOn r s = .next t ∧ t = { s with out := t.out } ∧ t.out.redraw = false ∧ t.out.await = none) ∧
    (HaltedIsQuiet s → stepOn r s = .next s)

/-- If the machine runs and pc > 0xFFE, a step sets the latch to AddressOutOfRange, clears the result,
and leaves everything else, timers included. (Decision D14 of the spec.) (Derived: 40_step_cycle.md
section 2, 92_eei_decisions.md D14.) -/
def Obligations.FetchBeyondMemoryTakesAddressOutOfRange : Prop :=
  ∀ (r : Byte) (s : State), Running s → 0xFFE < s.pc.toNat →
    stepOn r s = .next (faulted .addressOutOfRange s)

/-- For a running machine, a step ends with the latch at InvalidOpcode exactly when pc ≤ 0xFFE and the
word fetched at pc is one of the listed invalid words; the step then changes nothing but the latch
and the result. The latch and the cleared result, the preciseness, the bound on pc and the
invalidity of 5xyN and 9xyN are the spec's own decisions D6, D5, D14 and D17. (Derived:
60_exceptions.md section 1, 60_exceptions.md section 4, 30_encoding.md section 3,
92_eei_decisions.md D5, 92_eei_decisions.md D6, 92_eei_decisions.md D14, 92_eei_decisions.md D17.) -/
def Obligations.InvalidWordTakesInvalidOpcode : Prop :=
  ∀ (r : Byte) (s : State), Running s → ∃ t, stepOn r s = .next t ∧
    (t.fault = some .invalidOpcode ↔
      s.pc.toNat ≤ 0xFFE ∧
        InvalidWord (Memory.read s.mem s.pc.toNat ++ Memory.read s.mem (s.pc.toNat + 1))) ∧
    (t.fault = some .invalidOpcode → t = faulted .invalidOpcode s)

/-- When the machine runs and fetches instruction i, the step answers a next state whose latch is what
the fault table gives for i on the state before the step: CALL with SP = 16, RET with SP = 0, DRW
with n ≥ 1 and I + n - 1 > 0xFFF, LD B with I + 2 > 0xFFF, the register dump and load with I + x >
0xFFF, and nothing else. (Decision D5 of the spec.) (Derived: 40_step_cycle.md section 2,
60_exceptions.md section 1, 92_eei_decisions.md D5.) -/
def Obligations.FaultTableDecidesEveryFault : Prop :=
  ∀ (r : Byte) (s : State) (i : Instr), Fetches s i →
    ∃ t, stepOn r s = .next t ∧ t.fault = tableFault i s

/-- If the machine runs and a step ends with the latch set, then registers, I, timers, stack, SP,
memory, keys and pc hold exactly what they held before, and the result reports no redraw and no
await. (Decisions D5 and D6 of the spec.) (Derived: 60_exceptions.md section 4, 92_eei_decisions.md
D5, 92_eei_decisions.md D6.) -/
def Obligations.FaultingStepsArePrecise : Prop :=
  ∀ (r : Byte) (s t : State) (f : Fault), Running s → stepOn r s = .next t → t.fault = some f →
    t = faulted f s

/-- In the view in which a fault is an outcome of the step, step answers a next state exactly when the
machine runs, pc ≤ 0xFFE, the word at pc decodes to an instruction, and the fault table gives no
fault for it. That the model takes a fault as a next state with the latch set, and reads the outcome
off it, is the model's choice (log 2). (Derived: 60_exceptions.md section 4, 60_exceptions.md
section 1, 40_step_cycle.md section 2.) -/
def Obligations.StepIsSafeExactlyWhenNothingFaults : Prop :=
  ∀ s : State, StepSafe s ↔ ∃ i, Fetches s i ∧ tableFault i s = none

/-- From a halted state, every trace of steps and key events answers a next state that differs at most
in the key latch and the result's ports, the fault latch unchanged; and a reset with a ROM of legal
length clears the latch and discards the whole state of the block, whatever it was. The halt and its
end by reset alone are the spec's own decision D6, key events on a halted machine its D25. That a
reset does not discard the count of random bytes and sets the byte on the random input's port to 0
is the model's choice (log 10), that it clears the result too (log 3). (Derived: 60_exceptions.md
section 5, 70_reset_and_hazards.md section 1, 92_eei_decisions.md D6, 92_eei_decisions.md D25.) -/
def Obligations.NothingButResetLeavesTheHalt : Prop :=
  (∀ (es : List Event) (s : State), ¬ Running s → (∀ rom, Event.reset rom ∉ es) →
      ∃ t, runEvents es s = .next t ∧ t = { s with key := t.key, out := t.out }) ∧
    (∀ (rom : List Byte) (s : State), rom.length ≤ maxRom →
      ∃ t, resetWith rom s = .next t ∧ t = { resetState rom with draws := s.draws } ∧ Running t)

/-- In a step that executes instruction i, DT ends one lower (never below 0) unless i is LD DT, Vx,
which leaves exactly Vx; ST likewise with LD ST, Vx; and LD Vx, DT stores the lowered DT. A faulting
step leaves both timers. (Decisions D3 and D4 of the spec.) (Derived: 40_step_cycle.md section 2,
45_timers_keys.md section 1, 92_eei_decisions.md D3, 92_eei_decisions.md D4.) -/
def Obligations.TimersTickOncePerExecutedStep : Prop :=
  ∀ (r : Byte) (s : State) (i : Instr), Fetches s i → ∃ t, stepOn r s = .next t ∧
    (tableFault i s = none →
      t.dt.toNat = dtAfter i s ∧ t.st.toNat = stAfter i s ∧
      (∀ x, i = .ldVxDt x → (t.readV x).toNat = s.dt.toNat - 1)) ∧
    (tableFault i s ≠ none → SameTimers s t)

/-- After any step, redraw is set exactly when the step executed CLS or DRW without a fault, and await
is Some(x) exactly when it executed LD Vx, K with no key pressed. That CLS sets redraw is the spec's
own decision D22. (Derived: 40_step_cycle.md section 3, 92_eei_decisions.md D22.) -/
def Obligations.OnlyDrawAndClearRequestRedraw : Prop :=
  ∀ (r : Byte) (s : State), ∃ t, stepOn r s = .next t ∧
    (t.out.redraw = true ↔ ∃ i, Fetches s i ∧ tableFault i s = none ∧ (i = .cls ∨ ∃ x y n, i = .drw x y n)) ∧
    (∀ x, t.out.await = some x ↔ Fetches s (.ldVxK x) ∧ ∀ k : Reg, s.key[k] = false)

/-- Every step leaves all 16 key bits as they are, in every state; a key event sets the bit of its key,
leaves the others, and changes nothing else, halted or not. (Decision D25 of the spec.) (Derived:
40_step_cycle.md section 3, 10_state.md section 6, 92_eei_decisions.md D25.) -/
def Obligations.KeyLatchIsWrittenOnlyByKeyEvents : Prop :=
  (∀ (r : Byte) (s t : State), stepOn r s = .next t → t.key = s.key) ∧
    (∀ (k : Reg) (p : Bool) (s : State),
      (keyEvent k p s).key[k] = p ∧ (∀ j : Reg, j ≠ k → (keyEvent k p s).key[j] = s.key[j]) ∧
      keyEvent k p s = { s with key := (keyEvent k p s).key })

/-- For every instruction that does not fault: ADD, SUB, SHR, SUBN and SHL between registers leave VF at
0 or 1 as their flag rule gives it from the operands before; DRW leaves 0 or 1, and with canonical
memory 1 exactly when a set bit of one of its sprite rows lay on a set pixel as the row was drawn,
which the draw turned off; every other instruction leaves VF unless it names VF as its destination.
That the flag wins over a result in VF is the spec's own decision D18, where a row's pixels lie and
when its byte is read its decisions D19 and D20. (Derived: 10_state.md section 3, 42_alu.md section
1, 44_draw.md section 2, 92_eei_decisions.md D18, 92_eei_decisions.md D19, 92_eei_decisions.md D20.) -/
def Obligations.VFIsWrittenOnlyAsTheTableSays : Prop :=
  ∀ (i : Instr) (s : State), tableFault i s = none → ∃ t, exec i s = .next t ∧
    (∀ f, flagOf i s = some f → t.readV 15 = if f then 1#8 else 0#8) ∧
    (isDraw i = true → t.readV 15 = 0#8 ∨ t.readV 15 = 1#8) ∧
    (∀ x y n, i = .drw x y n → Canonical s → ∃ ms : Nat → Memory, RowsDrawn x y n s ms ∧
      t.mem = ms n.val ∧ (t.readV 15 = 1#8 ↔ Collides x y n s ms)) ∧
    (flagOf i s = none → isDraw i = false → namesVF i = false → t.readV 15 = s.readV 15)

/-- For every instruction: general registers, I, DT, ST, the call stack with SP, and memory are
unchanged by an instruction that the state table does not list as writing them; the key latch, the
random input's port and count are changed by none; and an instruction that does not fault leaves the
fault latch. (Derived: 10_state.md section 1, 00_scope.md section 5.) -/
def Obligations.StateIsWrittenOnlyByTheListedInstructions : Prop :=
  ∀ (i : Instr) (s : State), ∃ t, exec i s = .next t ∧
    (writesV i = false → t.v = s.v) ∧
    (writesI i = false → t.i = s.i) ∧
    (writesDt i = false → t.dt = s.dt) ∧
    (writesSt i = false → t.st = s.st) ∧
    (writesStack i = false → t.stack = s.stack ∧ t.sp = s.sp) ∧
    (writesMem i = false → t.mem = s.mem) ∧
    t.key = s.key ∧ t.rnd = s.rnd ∧ t.draws = s.draws ∧
    (tableFault i s = none → t.fault = s.fault)

/-- Every instruction that does not fault answers a next state whose pc is pc + 2, except that a taken
skip gives pc + 4, a jump, call or return gives its target with no extra 2, and LD Vx, K with no key
pressed leaves pc; one that faults leaves pc. (Derived: 40_step_cycle.md section 2, 10_state.md
section 4.) -/
def Obligations.PcIsWrittenOnceByEveryInstruction : Prop :=
  ∀ (i : Instr) (s : State), ∃ t, exec i s = .next t ∧
    (tableFault i s = none → t.pc = nextPc i s) ∧ (tableFault i s ≠ none → t.pc = s.pc)

/-- For every state that meets the invariant, if step answers a next state, that state meets it: memory
is in its canonical form with no cell above 0xFFF, pc ≤ 0x10FE, every stack entry ≤ 0x1000, and a
halted machine's result reports neither redraw nor await. (Derived: 10_state.md section 4,
20_memory.md section 2, 60_exceptions.md section 4.) -/
def Obligations.InvariantKeptByEveryStep : Prop :=
  ∀ s t : State, Inv s → step s = .next t → Inv t

/-- From every state that meets the invariant, every trace of events (steps with any random bytes, key
events, resets) that answers a next state answers one that meets it. (Derived: 40_step_cycle.md
section 1, 10_state.md section 4, 70_reset_and_hazards.md section 1.) -/
def Obligations.InvariantKeptByEveryEvent : Prop :=
  ∀ (es : List Event) (s t : State), Inv s → runEvents es s = .next t → Inv t

/-- The state after reset meets the invariant: canonical memory, a bounded pc and bounded stack entries
(the clause on a halted machine's result holds since the machine runs). Its result reports no redraw
and no key awaited, which is the model's choice (log 3). (Derived: 10_state.md section 9.) -/
def Obligations.ResetMeetsTheInvariant : Prop :=
  Inv State.reset ∧ State.reset.out = Output.none

/-- After Reset with a ROM of at most 3584 bytes every general register, I, DT, ST, SP, every stack
entry and every key is 0, pc is 0x200, no fault is latched, and memory holds the font bytes below
80, the ROM from 0x200, and 0 everywhere else; a longer ROM is refused; State.reset is that state
for the empty ROM. The font bytes are the spec's from general knowledge (log 4), the bases its
decisions D7 and D8, the key latch D25, the refusal D30. (Derived: 10_state.md section 9,
70_reset_and_hazards.md section 1, 92_eei_decisions.md D7, 92_eei_decisions.md D8,
92_eei_decisions.md D10, 92_eei_decisions.md D25, 92_eei_decisions.md D30.) -/
def Obligations.ResetLoadsTheRomOrRefuses : Prop :=
  resetState [] = State.reset ∧
    ∀ (rom : List Byte) (s : State),
      (rom.length ≤ 3584 → ∃ t, resetWith rom s = .next t ∧
        (∀ x, t.readV x = 0#8) ∧ t.i = 0#16 ∧ t.dt = 0#8 ∧ t.st = 0#8 ∧ t.pc = 0x200#16 ∧ t.sp.val = 0 ∧
        (∀ j : Fin parameters.stackDepth, t.stack[j] = 0#16) ∧ (∀ k : Reg, t.key[k] = false) ∧ t.fault = none ∧
        (∀ a, a < 80 → Memory.read t.mem a = fontBytes.getD a 0#8) ∧
        (∀ a, 80 ≤ a → a < 0x200 → Memory.read t.mem a = 0#8) ∧
        (∀ a, 0x200 ≤ a → a ≤ 0xFFF → Memory.read t.mem a = rom.getD (a - 0x200) 0#8)) ∧
      (3584 < rom.length → resetWith rom s = .refused .romTooLong)

/-- With SP < 16, CALL nnn answers a next state; RET on any state with that state's stack and SP answers
a next state whose pc is the CALL's pc + 2, whose SP is the SP before the CALL, and whose stack
entry at that SP is the dead return address. (Derived: 41_control_flow.md section 2, 10_state.md
section 5.) -/
def Obligations.CallThenReturnRestoresPc : Prop :=
  ∀ (nnn : Addr12) (s : State), s.sp.val < 16 → ∃ t, exec (.call nnn) s = .next t ∧
    ∀ u : State, u.stack = t.stack → u.sp = t.sp →
      ∃ w, exec .ret u = .next w ∧ w.pc = s.pc + 2#16 ∧ w.sp = s.sp ∧
        ∀ j : Fin parameters.stackDepth, w.stack[j] = if j.val = s.sp.val then s.pc + 2#16 else s.stack[j]

/-- With canonical memory, the sprite in range and outside the framebuffer, a DRW followed by the same
DRW on any state with the memory the first left and the same I, Vx and Vy restores every byte of
memory; and the second draw's VF is 1 exactly when the first draw lit at least one pixel. (Derived:
44_draw.md section 2, 92_eei_decisions.md D19.) -/
def Obligations.DrawingTwiceRestoresTheFramebuffer : Prop :=
  ∀ (x y n : Reg) (s : State), Canonical s → s.i.toNat + n.val ≤ 0x1000 →
    (s.i.toNat + n.val ≤ parameters.fbBase ∨ parameters.fbBase + 256 ≤ s.i.toNat) →
    ∃ t, exec (.drw x y n) s = .next t ∧
      ∀ u : State, u.mem = t.mem → u.i = s.i → u.readV x = s.readV x → u.readV y = s.readV y →
        ∃ w, exec (.drw x y n) u = .next w ∧
          (∀ a, Memory.read w.mem a = Memory.read s.mem a) ∧
          (w.readV 15 = 1#8 ↔ ∃ p, p < 2048 ∧ pixel s.mem p = false ∧ pixel t.mem p = true)

/-- For canonical memory and an anchor x0 < 64, y0 < 32, the eight pixel writes of a sprite row with
byte b do the same as FB[B] <- FB[B] XOR (b >> sh) and FB[(B + 1) mod 256] <- FB[(B + 1) mod 256]
XOR (b << (8 - sh)), with q = ((y0 + r) × 64 + x0) mod 2048, B = q div 8 and sh = x0 mod 8, leave
every other byte, and collide exactly when one of the two old bytes has a bit in common with its
part of b. (Derived: 44_draw.md section 2, 92_eei_decisions.md D19.) -/
def Obligations.DrawRowIsATwoByteXor : Prop :=
  ∀ (m : Memory) (x0 y0 r : Nat) (b : Byte), Memory.wf m = true → x0 < 64 → y0 < 32 → r < 15 →
    let B := ((y0 + r) * 64 + x0) % 2048 / 8
    let sh := x0 % 8
    let a1 := parameters.fbBase + B
    let a2 := parameters.fbBase + (B + 1) % 256
    Memory.read (drawPixels x0 y0 r b 8 (m, false)).1 a1 = Memory.read m a1 ^^^ (b >>> sh) ∧
    Memory.read (drawPixels x0 y0 r b 8 (m, false)).1 a2 = Memory.read m a2 ^^^ (b <<< (8 - sh)) ∧
    (∀ a, a ≠ a1 → a ≠ a2 → Memory.read (drawPixels x0 y0 r b 8 (m, false)).1 a = Memory.read m a) ∧
    ((drawPixels x0 y0 r b 8 (m, false)).2 = true ↔
      Memory.read m a1 &&& (b >>> sh) ≠ 0#8 ∨ Memory.read m a2 &&& (b <<< (8 - sh)) ≠ 0#8)

/-- For every instruction and every two states that differ at most in ST, the next states differ at most
in ST, and each ST is what it was unless the instruction is LD ST, Vx. (Derived: 10_state.md section
6.) -/
def Obligations.SoundTimerIsReadByNoInstruction : Prop :=
  ∀ (i : Instr) (s : State) (b : Byte), ∃ t u,
    exec i s = .next t ∧ exec i { s with st := b } = .next u ∧ u = { t with st := u.st } ∧
    ((∀ x, i ≠ .ldStVx x) → t.st = s.st ∧ u.st = b)

/-- From every state that does not fetch an RND (a halted one, a pc out of range, an invalid word, a
faulting instruction and any other instruction alike), steps with any two random bytes end in states
that differ at most in the byte held on the random input's port. That the byte is an input of the
step is the spec's own decision D26; that the state holds it, the model's choice (log 1). (Derived:
40_step_cycle.md section 3, 92_eei_decisions.md D26.) -/
def Obligations.OnlyRandomReadsTheRandomInput : Prop :=
  ∀ (r q : Byte) (s : State), (∀ x kk, ¬ Fetches s (.rnd x kk)) →
    ∃ t u, stepOn r s = .next t ∧ stepOn q s = .next u ∧ u = { t with rnd := u.rnd }

/-- Every word 0nnn other than 00E0 and 00EE decodes to SYS nnn, which answers a next state with pc + 2
and everything else as before; and a step that fetches it also ticks both timers and changes no
other register, no memory and no stack entry. (Stated: R110.) -/
def Obligations.SysIsANoOperation : Prop :=
  ∀ (nnn : Addr12) (s : State),
    (nnn ≠ 0x0E0#12 → nnn ≠ 0x0EE#12 → decode (wordNNN 0x0#4 nnn) = .instr (.sys nnn)) ∧
    (∃ t, exec (.sys nnn) s = .next t ∧ t.pc = s.pc + 2#16 ∧ OnlyPc s t) ∧
    (∀ r : Byte, Fetches s (.sys nnn) → ∃ t, stepOn r s = .next t ∧ t.pc = s.pc + 2#16 ∧
      t.dt.toNat = s.dt.toNat - 1 ∧ t.st.toNat = s.st.toNat - 1 ∧ SameV s t ∧ SameMem s t ∧ t.i = s.i ∧
      SameStack s t ∧ Running t)

/-- 00EE decodes to RET; with SP > 0 it answers a next state with SP one lower, pc the popped entry with
no extra 2, the entry still in the stack, and everything else as before; a popped entry above 0xFFE
makes the next step of a running machine take AddressOutOfRange; with SP = 0 it takes
StackUnderflow, nothing else changed, pc and, in a step, the timers included; and a CALL with SP <
16 followed by RET leaves pc at the instruction after the CALL. (Stated: R111, R213.) -/
def Obligations.ReturnPopsOrUnderflows : Prop :=
  decode 0x00EE#16 = .instr .ret ∧
    ∀ s : State,
      (s.sp.val ≠ 0 → ∃ t, exec .ret s = .next t ∧ t.sp.val = s.sp.val - 1 ∧
        (∀ j : Fin parameters.stackDepth, j.val + 1 = s.sp.val → t.pc = s.stack[j]) ∧ t.stack = s.stack ∧ OnlyStackPc s t ∧
        (Running s → 0xFFE < t.pc.toNat → ∀ r, stepOn r t = .next (faulted .addressOutOfRange t))) ∧
      (s.sp.val = 0 → exec .ret s = .next (faulted .stackUnderflow s) ∧
        ∀ r, Fetches s .ret → stepOn r s = .next (faulted .stackUnderflow s)) ∧
      (∀ nnn, s.sp.val < 16 → ∃ t w, exec (.call nnn) s = .next t ∧ exec .ret t = .next w ∧
        w.pc = s.pc + 2#16)

/-- 1nnn decodes to JP nnn, which answers a next state with pc = nnn, odd or above 0xFFE alike, and
everything else as before; with nnn = 0xFFF the next step of a running machine takes
AddressOutOfRange. (Stated: R112.) -/
def Obligations.JumpSetsPcToItsAddress : Prop :=
  ∀ (nnn : Addr12) (s : State), decode (wordNNN 0x1#4 nnn) = .instr (.jp nnn) ∧
    ∃ t, exec (.jp nnn) s = .next t ∧ t.pc.toNat = nnn.toNat ∧ OnlyPc s t ∧
      (nnn = 0xFFF#12 → Running s → ∀ r, stepOn r t = .next (faulted .addressOutOfRange t))

/-- 2nnn decodes to CALL nnn; with SP < 16 it answers a next state with Stack[SP] = pc + 2, every other
entry as before, SP one higher, pc = nnn, and everything else as before; with SP = 16 it takes
StackOverflow, nothing pushed, pc unmoved and, in a step, the timers too; the pushed pc + 2 of a
fetched CALL is at most 0x1000. (Stated: R113, R212.) -/
def Obligations.CallPushesOrOverflows : Prop :=
  ∀ (nnn : Addr12) (s : State), decode (wordNNN 0x2#4 nnn) = .instr (.call nnn) ∧
    (s.sp.val < 16 → ∃ t, exec (.call nnn) s = .next t ∧ t.sp.val = s.sp.val + 1 ∧
      (∀ j : Fin parameters.stackDepth, t.stack[j] = if j.val = s.sp.val then s.pc + 2#16 else s.stack[j]) ∧
      t.pc.toNat = nnn.toNat ∧ OnlyStackPc s t) ∧
    (s.sp.val = 16 → exec (.call nnn) s = .next (faulted .stackOverflow s) ∧
      ∀ r, Fetches s (.call nnn) → stepOn r s = .next (faulted .stackOverflow s)) ∧
    (Fetches s (.call nnn) → (s.pc + 2#16).toNat ≤ 0x1000)

/-- 3xkk decodes to SE Vx, kk, which answers a next state with pc + 4 if Vx = kk, else pc + 2; 4xkk
decodes to SNE Vx, kk with the two exchanged; nothing else changes, VF included, and x = 15 compares
VF like any register. (Stated: R114, R115.) -/
def Obligations.SkipsOnAnImmediate : Prop :=
  ∀ (x : Reg) (kk : Byte) (s : State),
    decode (wordXKK 0x3#4 x kk) = .instr (.seImm x kk) ∧
    decode (wordXKK 0x4#4 x kk) = .instr (.sneImm x kk) ∧
    (∃ t, exec (.seImm x kk) s = .next t ∧ OnlyPc s t ∧
      (s.readV x = kk → t.pc = s.pc + 4#16) ∧ (s.readV x ≠ kk → t.pc = s.pc + 2#16)) ∧
    (∃ t, exec (.sneImm x kk) s = .next t ∧ OnlyPc s t ∧
      (s.readV x ≠ kk → t.pc = s.pc + 4#16) ∧ (s.readV x = kk → t.pc = s.pc + 2#16))

/-- 5xy0 decodes to SE Vx, Vy, which answers a next state with pc + 4 if Vx = Vy (so always with x = y),
else pc + 2; 9xy0 decodes to SNE Vx, Vy with the two exchanged (never with x = y); nothing else
changes. (Stated: R116, R117.) -/
def Obligations.SkipsOnTwoRegisters : Prop :=
  ∀ (x y : Reg) (s : State),
    decode (wordXYN 0x5#4 x y 0x0#4) = .instr (.seReg x y) ∧
    decode (wordXYN 0x9#4 x y 0x0#4) = .instr (.sneReg x y) ∧
    (∀ n : BitVec 4, n ≠ 0#4 → (∃ e, decode (wordXYN 0x5#4 x y n) = .invalid e) ∧
      (∃ e, decode (wordXYN 0x9#4 x y n) = .invalid e)) ∧
    (∃ t, exec (.seReg x y) s = .next t ∧ OnlyPc s t ∧
      (s.readV x = s.readV y → t.pc = s.pc + 4#16) ∧ (s.readV x ≠ s.readV y → t.pc = s.pc + 2#16)) ∧
    (∃ t, exec (.sneReg x y) s = .next t ∧ OnlyPc s t ∧
      (s.readV x ≠ s.readV y → t.pc = s.pc + 4#16) ∧ (s.readV x = s.readV y → t.pc = s.pc + 2#16))

/-- Bnnn decodes to JP V0, nnn, which answers a next state with pc the sum of V0 and nnn as natural
numbers, at most 0x10FE, and everything else as before. That the sum is not masked is the spec's own
decision D31. (Derived: 41_control_flow.md section 2, 92_eei_decisions.md D31.) -/
def Obligations.JumpThroughV0AddsWithoutWrap : Prop :=
  ∀ (nnn : Addr12) (s : State), decode (wordNNN 0xB#4 nnn) = .instr (.jpV0 nnn) ∧
    ∃ t, exec (.jpV0 nnn) s = .next t ∧ t.pc.toNat = (s.readV 0).toNat + nnn.toNat ∧
      t.pc.toNat ≤ 0x10FE ∧ OnlyPc s t

/-- 6xkk decodes to LD Vx, kk, which answers a next state with Vx = kk, every other register as before
(VF too unless x = 15), pc + 2, and everything else as before; and a SYS no-operation after it still
observes Vx = kk. (Stated: R130.) -/
def Obligations.LoadImmediateWritesOnlyVx : Prop :=
  ∀ (x : Reg) (kk : Byte) (s : State), decode (wordXKK 0x6#4 x kk) = .instr (.ldImm x kk) ∧
    ∃ t, exec (.ldImm x kk) s = .next t ∧ t.readV x = kk ∧ SameVBut x s t ∧ t.pc = s.pc + 2#16 ∧
      OnlyVPc s t ∧ ∀ nnn, ∃ u, exec (.sys nnn) t = .next u ∧ u.readV x = kk

/-- 7xkk decodes to ADD Vx, kk, which answers a next state with Vx the sum modulo 256, every other
register as before (VF too unless x = 15), pc + 2, and everything else as before. (Stated: R131.) -/
def Obligations.AddImmediateWrapsWithoutFlag : Prop :=
  ∀ (x : Reg) (kk : Byte) (s : State), decode (wordXKK 0x7#4 x kk) = .instr (.addImm x kk) ∧
    ∃ t, exec (.addImm x kk) s = .next t ∧
      (t.readV x).toNat = ((s.readV x).toNat + kk.toNat) % 256 ∧ SameVBut x s t ∧
      t.pc = s.pc + 2#16 ∧ OnlyVPc s t

/-- 8xy0 decodes to LD Vx, Vy, which answers a next state with Vx = Vy, every other register as before,
pc + 2, and everything else as before. (Stated: R132.) -/
def Obligations.LoadRegisterCopiesVy : Prop :=
  ∀ (x y : Reg) (s : State), decode (wordXYN 0x8#4 x y 0x0#4) = .instr (.ldReg x y) ∧
    ∃ t, exec (.ldReg x y) s = .next t ∧ t.readV x = s.readV y ∧ SameVBut x s t ∧
      t.pc = s.pc + 2#16 ∧ OnlyVPc s t

/-- 8xy1, 8xy2 and 8xy3 decode to OR, AND and XOR, each of which answers a next state whose Vx has each
bit the OR, AND or XOR of the bits of the old Vx and Vy, every other register as before (VF too
unless x = 15), pc + 2, and everything else as before. (Stated: R133, R134, R135.) -/
def Obligations.LogicLeavesVFAlone : Prop :=
  ∀ (x y : Reg) (s : State),
    decode (wordXYN 0x8#4 x y 0x1#4) = .instr (.orReg x y) ∧
    decode (wordXYN 0x8#4 x y 0x2#4) = .instr (.andReg x y) ∧
    decode (wordXYN 0x8#4 x y 0x3#4) = .instr (.xorReg x y) ∧
    (∃ t, exec (.orReg x y) s = .next t ∧
      (∀ j, (t.readV x).getLsbD j = ((s.readV x).getLsbD j || (s.readV y).getLsbD j)) ∧
      SameVBut x s t ∧ t.pc = s.pc + 2#16 ∧ OnlyVPc s t) ∧
    (∃ t, exec (.andReg x y) s = .next t ∧
      (∀ j, (t.readV x).getLsbD j = ((s.readV x).getLsbD j && (s.readV y).getLsbD j)) ∧
      SameVBut x s t ∧ t.pc = s.pc + 2#16 ∧ OnlyVPc s t) ∧
    (∃ t, exec (.xorReg x y) s = .next t ∧
      (∀ j, (t.readV x).getLsbD j = ((s.readV x).getLsbD j ^^ (s.readV y).getLsbD j)) ∧
      SameVBut x s t ∧ t.pc = s.pc + 2#16 ∧ OnlyVPc s t)

/-- 8xy4 decodes to ADD Vx, Vy, which answers a next state with Vx the sum modulo 256, VF 1 if the
unwrapped sum exceeds 255 else 0, every register but Vx and VF as before, pc + 2, and everything
else as before; with x = 15 VF ends as the flag, and the operands are read before anything is
written. (Stated: R136.) -/
def Obligations.AddRegistersSetsCarry : Prop :=
  ∀ (x y : Reg) (s : State), decode (wordXYN 0x8#4 x y 0x4#4) = .instr (.addReg x y) ∧
    ∃ t, exec (.addReg x y) s = .next t ∧
      (x ≠ 15 → (t.readV x).toNat = ((s.readV x).toNat + (s.readV y).toNat) % 256) ∧
      t.readV 15 = (if (s.readV x).toNat + (s.readV y).toNat > 255 then 1#8 else 0#8) ∧
      (∀ r : Reg, r ≠ x → r ≠ 15 → t.readV r = s.readV r) ∧ t.pc = s.pc + 2#16 ∧ OnlyVPc s t

/-- 8xy5 decodes to SUB Vx, Vy, which answers a next state with Vx = Vx - Vy modulo 256, VF 1 if Vx ≥ Vy
before the subtraction else 0, every register but Vx and VF as before, pc + 2, and everything else
as before; with x = 15 VF ends as the flag, and the operands are read before anything is written.
(Stated: R137.) -/
def Obligations.SubtractSetsNoBorrow : Prop :=
  ∀ (x y : Reg) (s : State), decode (wordXYN 0x8#4 x y 0x5#4) = .instr (.subReg x y) ∧
    ∃ t, exec (.subReg x y) s = .next t ∧
      (x ≠ 15 → (t.readV x).toNat = (256 + (s.readV x).toNat - (s.readV y).toNat) % 256) ∧
      t.readV 15 = (if (s.readV x).toNat ≥ (s.readV y).toNat then 1#8 else 0#8) ∧
      (∀ r : Reg, r ≠ x → r ≠ 15 → t.readV r = s.readV r) ∧ t.pc = s.pc + 2#16 ∧ OnlyVPc s t

/-- 8xy6 decodes, for every y, to SHR Vx, which answers a next state with Vx halved, VF the old bit 0 of
Vx, whatever Vy holds, every register but Vx and VF as before, pc + 2, and everything else as
before; with x = 15 VF ends as the flag, and the operands are read before anything is written.
(Stated: R138.) -/
def Obligations.ShiftRightInPlace : Prop :=
  ∀ (x y : Reg) (s : State), decode (wordXYN 0x8#4 x y 0x6#4) = .instr (.shr x y) ∧
    ∃ t, exec (.shr x y) s = .next t ∧
      (x ≠ 15 → (t.readV x).toNat = (s.readV x).toNat / 2) ∧
      t.readV 15 = (if (s.readV x).toNat % 2 = 1 then 1#8 else 0#8) ∧
      (∀ r : Reg, r ≠ x → r ≠ 15 → t.readV r = s.readV r) ∧ t.pc = s.pc + 2#16 ∧ OnlyVPc s t

/-- 8xy7 decodes to SUBN Vx, Vy, which answers a next state with Vx = Vy - Vx modulo 256, VF 1 if Vy ≥
Vx before the subtraction else 0, every register but Vx and VF as before, pc + 2, and everything
else as before; with x = 15 VF ends as the flag, and the operands are read before anything is
written. (Stated: R139.) -/
def Obligations.ReverseSubtractSetsNoBorrow : Prop :=
  ∀ (x y : Reg) (s : State), decode (wordXYN 0x8#4 x y 0x7#4) = .instr (.subnReg x y) ∧
    ∃ t, exec (.subnReg x y) s = .next t ∧
      (x ≠ 15 → (t.readV x).toNat = (256 + (s.readV y).toNat - (s.readV x).toNat) % 256) ∧
      t.readV 15 = (if (s.readV y).toNat ≥ (s.readV x).toNat then 1#8 else 0#8) ∧
      (∀ r : Reg, r ≠ x → r ≠ 15 → t.readV r = s.readV r) ∧ t.pc = s.pc + 2#16 ∧ OnlyVPc s t

/-- 8xyE decodes, for every y, to SHL Vx, which answers a next state with Vx doubled modulo 256, VF the
old bit 7 of Vx, whatever Vy holds, every register but Vx and VF as before, pc + 2, and everything
else as before; with x = 15 VF ends as the flag, and the operands are read before anything is
written. (Stated: R140.) -/
def Obligations.ShiftLeftInPlace : Prop :=
  ∀ (x y : Reg) (s : State), decode (wordXYN 0x8#4 x y 0xE#4) = .instr (.shl x y) ∧
    ∃ t, exec (.shl x y) s = .next t ∧
      (x ≠ 15 → (t.readV x).toNat = (s.readV x).toNat * 2 % 256) ∧
      t.readV 15 = (if (s.readV x).toNat ≥ 128 then 1#8 else 0#8) ∧
      (∀ r : Reg, r ≠ x → r ≠ 15 → t.readV r = s.readV r) ∧ t.pc = s.pc + 2#16 ∧ OnlyVPc s t

/-- Cxkk decodes to RND Vx, kk, which answers a next state with Vx = (the byte on the random input) AND
kk, so that no bit outside kk is set, every other register as before, pc + 2, and everything else as
before; and a step that fetches it with random byte r, for every r, leaves Vx = r AND kk. r is free.
(Stated: R141.) -/
def Obligations.RandomByteIsMasked : Prop :=
  ∀ (x : Reg) (kk : Byte) (s : State), decode (wordXKK 0xC#4 x kk) = .instr (.rnd x kk) ∧
    (∃ t, exec (.rnd x kk) s = .next t ∧
      (∀ j, (t.readV x).getLsbD j = (s.rnd.getLsbD j && kk.getLsbD j)) ∧ t.readV x &&& ~~~kk = 0#8 ∧
      SameVBut x s t ∧ t.pc = s.pc + 2#16 ∧ OnlyVPc s t) ∧
    (∀ r : Byte, Fetches s (.rnd x kk) →
      ∃ t, stepOn r s = .next t ∧ t.readV x = r &&& kk ∧ SameVBut x s t)

/-- Annn decodes to LD I, nnn, which answers a next state with I = nnn zero-extended, pc + 2, and
everything else as before. (Stated: R150.) -/
def Obligations.LoadIndexTakesTheAddress : Prop :=
  ∀ (nnn : Addr12) (s : State), decode (wordNNN 0xA#4 nnn) = .instr (.ldI nnn) ∧
    ∃ t, exec (.ldI nnn) s = .next t ∧ t.i.toNat = nnn.toNat ∧ t.pc = s.pc + 2#16 ∧ OnlyIPc s t

/-- Fx1E decodes to ADD I, Vx, which answers a next state with I the sum modulo 65536, pc + 2, and
everything else as before, VF included. That I is not masked to 12 bits is the spec's own decision
D12. (Derived: 43_index_memory.md section 2, 92_eei_decisions.md D12.) -/
def Obligations.AddIndexWrapsAtSixteenBits : Prop :=
  ∀ (x : Reg) (s : State), decode (wordXKK 0xF#4 x 0x1E#8) = .instr (.addI x) ∧
    ∃ t, exec (.addI x) s = .next t ∧ t.i.toNat = (s.i.toNat + (s.readV x).toNat) % 65536 ∧
      t.pc = s.pc + 2#16 ∧ OnlyIPc s t

/-- Fx29 decodes to LD F, Vx, which answers a next state with I = FONT_BASE + 5 × Vx for all 256 values
of Vx, pc + 2, and everything else as before. FONT_BASE = 0 and the use of the whole byte are the
spec's own decisions D8 and D28. (Derived: 43_index_memory.md section 2, 92_eei_decisions.md D8,
92_eei_decisions.md D28.) -/
def Obligations.GlyphAddressUsesTheWholeByte : Prop :=
  ∀ (x : Reg) (s : State), decode (wordXKK 0xF#4 x 0x29#8) = .instr (.ldF x) ∧
    ∃ t, exec (.ldF x) s = .next t ∧ t.i.toNat = parameters.fontBase + (s.readV x).toNat * 5 ∧
      t.pc = s.pc + 2#16 ∧ OnlyIPc s t

/-- Fx33 decodes to LD B, Vx; with canonical memory and I + 2 ≤ 0xFFF it answers a next state with the
hundreds, tens and ones digits of Vx in the bytes at I, I + 1 and I + 2, every other byte, all
registers and I as before, and pc + 2; with I + 2 > 0xFFF it takes AddressOutOfRange and nothing
else changes. (Stated: R153.) -/
def Obligations.BcdStoresThreeDigitsOrFaults : Prop :=
  ∀ (x : Reg) (s : State), decode (wordXKK 0xF#4 x 0x33#8) = .instr (.ldB x) ∧
    (Canonical s → s.i.toNat + 2 ≤ 0xFFF → ∃ t, exec (.ldB x) s = .next t ∧
      (Memory.read t.mem s.i.toNat).toNat = (s.readV x).toNat / 100 ∧
      (Memory.read t.mem (s.i.toNat + 1)).toNat = (s.readV x).toNat / 10 % 10 ∧
      (Memory.read t.mem (s.i.toNat + 2)).toNat = (s.readV x).toNat % 10 ∧
      SameMemOutside s.i.toNat 3 s t ∧ t.pc = s.pc + 2#16 ∧ OnlyMemPc s t) ∧
    (s.i.toNat + 2 > 0xFFF → exec (.ldB x) s = .next (faulted .addressOutOfRange s))

/-- Fx55 decodes to LD [I], Vx; with canonical memory and I + x ≤ 0xFFF it answers a next state with Vj
in the byte at I + j for each j from 0 to x, every other byte, all registers and I as before, and pc
+ 2; with I + x > 0xFFF it takes AddressOutOfRange and nothing else changes. (Stated: R154.) -/
def Obligations.RegisterDumpStoresV0ToVxOrFaults : Prop :=
  ∀ (x : Reg) (s : State), decode (wordXKK 0xF#4 x 0x55#8) = .instr (.ldMemVx x) ∧
    (Canonical s → s.i.toNat + x.val ≤ 0xFFF → ∃ t, exec (.ldMemVx x) s = .next t ∧
      (∀ j : Reg, j ≤ x → Memory.read t.mem (s.i.toNat + j.val) = s.readV j) ∧
      SameMemOutside s.i.toNat (x.val + 1) s t ∧ t.pc = s.pc + 2#16 ∧ OnlyMemPc s t) ∧
    (s.i.toNat + x.val > 0xFFF → exec (.ldMemVx x) s = .next (faulted .addressOutOfRange s))

/-- Fx65 decodes to LD Vx, [I]; with I + x ≤ 0xFFF it answers a next state with Vj the byte at I + j for
each j from 0 to x, the registers above x, memory and I as before, and pc + 2; with I + x > 0xFFF it
takes AddressOutOfRange and nothing else changes. (Stated: R155.) -/
def Obligations.RegisterLoadReadsV0ToVxOrFaults : Prop :=
  ∀ (x : Reg) (s : State), decode (wordXKK 0xF#4 x 0x65#8) = .instr (.ldVxMem x) ∧
    (s.i.toNat + x.val ≤ 0xFFF → ∃ t, exec (.ldVxMem x) s = .next t ∧
      (∀ j : Reg, j ≤ x → t.readV j = Memory.read s.mem (s.i.toNat + j.val)) ∧
      (∀ j : Reg, x < j → t.readV j = s.readV j) ∧ t.pc = s.pc + 2#16 ∧ OnlyVPc s t) ∧
    (s.i.toNat + x.val > 0xFFF → exec (.ldVxMem x) s = .next (faulted .addressOutOfRange s))

/-- 00E0 decodes to CLS, which with canonical memory answers a next state with the 256 bytes from
FB_BASE zero, every other byte and every register as before, VF included, redraw set, and pc + 2.
The redraw is the spec's own decision D22, FB_BASE its decision D9. (Derived: 44_draw.md section 1,
92_eei_decisions.md D9, 92_eei_decisions.md D22.) -/
def Obligations.ClearScreenZeroesOnlyTheFramebuffer : Prop :=
  decode 0x00E0#16 = .instr .cls ∧
    ∀ s : State, Canonical s → ∃ t, exec .cls s = .next t ∧
      (∀ j, j < 256 → Memory.read t.mem (parameters.fbBase + j) = 0#8) ∧
      SameMemOutside parameters.fbBase 256 s t ∧ SameV s t ∧ t.i = s.i ∧ SameStack s t ∧
      SameTimers s t ∧ SameHost s t ∧ t.out = { s.out with redraw := true } ∧ t.pc = s.pc + 2#16

/-- Dxyn decodes to DRW Vx, Vy, n. With canonical memory and n = 0 or I + n - 1 ≤ 0xFFF it answers a
next state; memory goes through n + 1 contents, the first the old memory and the last the new, and
row k turns over exactly the pixels ((y0 + k) × 64 + x0 + c) mod 2048 for which bit 7 - c of the
byte at I + k (read from the memory the rows before left) is set, x0 = Vx mod 64 and y0 = Vy mod 32;
VF is 1 if a set sprite bit met a set pixel, else 0; no byte outside the framebuffer and no other
register changes; redraw is set; pc + 2. Otherwise it takes AddressOutOfRange and nothing else
changes. The linear wrap, the row order and n = 0 are the spec's own decisions D19, D20, D21.
(Derived: 44_draw.md section 2, 92_eei_decisions.md D15, 92_eei_decisions.md D19,
92_eei_decisions.md D20, 92_eei_decisions.md D21.) -/
def Obligations.DrawXorsTheSpriteRowByRowOrFaults : Prop :=
  ∀ (x y n : Reg) (s : State), decode (wordXYN 0xD#4 x y (nibble n)) = .instr (.drw x y n) ∧
    (Canonical s → (n.val = 0 ∨ s.i.toNat + n.val - 1 ≤ 0xFFF) →
      ∃ (t : State) (ms : Nat → Memory), exec (.drw x y n) s = .next t ∧
        RowsDrawn x y n s ms ∧ t.mem = ms n.val ∧
        (t.readV 15 = 0#8 ∨ t.readV 15 = 1#8) ∧ (t.readV 15 = 1#8 ↔ Collides x y n s ms) ∧
        SameMemOutside parameters.fbBase 256 s t ∧ SameVBut 15 s t ∧ t.i = s.i ∧ SameStack s t ∧
        SameTimers s t ∧ SameHost s t ∧ t.out = { s.out with redraw := true } ∧ t.pc = s.pc + 2#16) ∧
    (n.val ≠ 0 → s.i.toNat + n.val - 1 > 0xFFF →
      exec (.drw x y n) s = .next (faulted .addressOutOfRange s))

/-- Fx07, Fx15 and Fx18 decode to LD Vx, DT, LD DT, Vx and LD ST, Vx: the first answers a next state
with Vx = DT, the second with DT = Vx, the third with ST = Vx, each with pc + 2 and everything else
as before (the timer phase is the step's). (Derived: 45_timers_keys.md section 1.) -/
def Obligations.TimerMovesCopyTheRegisters : Prop :=
  ∀ (x : Reg) (s : State),
    decode (wordXKK 0xF#4 x 0x07#8) = .instr (.ldVxDt x) ∧
    decode (wordXKK 0xF#4 x 0x15#8) = .instr (.ldDtVx x) ∧
    decode (wordXKK 0xF#4 x 0x18#8) = .instr (.ldStVx x) ∧
    (∃ t, exec (.ldVxDt x) s = .next t ∧ t.readV x = s.dt ∧ SameVBut x s t ∧ t.pc = s.pc + 2#16 ∧
      OnlyVPc s t) ∧
    (∃ t, exec (.ldDtVx x) s = .next t ∧ t.dt = s.readV x ∧ t.st = s.st ∧ t.pc = s.pc + 2#16 ∧
      SameV s t ∧ SameMem s t ∧ t.i = s.i ∧ SameStack s t ∧ SameHost s t ∧ t.out = s.out) ∧
    (∃ t, exec (.ldStVx x) s = .next t ∧ t.st = s.readV x ∧ t.dt = s.dt ∧ t.pc = s.pc + 2#16 ∧
      SameV s t ∧ SameMem s t ∧ t.i = s.i ∧ SameStack s t ∧ SameHost s t ∧ t.out = s.out)

/-- Ex9E and ExA1 decode to SKP Vx and SKNP Vx; for the key k = Vx mod 16, SKP answers a next state with
pc + 4 if k is pressed, else pc + 2, SKNP with the two exchanged; nothing else changes. The use of
the low four bits is the spec's own decision D23. (Derived: 45_timers_keys.md section 2,
92_eei_decisions.md D23.) -/
def Obligations.KeySkipsTestTheLowNibblesKey : Prop :=
  ∀ (x k : Reg) (s : State),
    decode (wordXKK 0xE#4 x 0x9E#8) = .instr (.skp x) ∧
    decode (wordXKK 0xE#4 x 0xA1#8) = .instr (.sknp x) ∧
    ((s.readV x).toNat % 16 = k.val →
      (∃ t, exec (.skp x) s = .next t ∧ OnlyPc s t ∧
        (s.key[k] = true → t.pc = s.pc + 4#16) ∧ (s.key[k] = false → t.pc = s.pc + 2#16)) ∧
      (∃ t, exec (.sknp x) s = .next t ∧ OnlyPc s t ∧
        (s.key[k] = false → t.pc = s.pc + 4#16) ∧ (s.key[k] = true → t.pc = s.pc + 2#16)))

/-- Fx0A decodes to LD Vx, K. If key k is pressed and no lower key is, it answers a next state with Vx =
k, pc + 2, the latch not cleared and everything else as before; with no key pressed it answers a
next state that reports await = Some(x) and differs in nothing else, pc included. The lowest key is
the spec's own decision D24. (Derived: 45_timers_keys.md section 2, 92_eei_decisions.md D24.) -/
def Obligations.KeyReadTakesTheLowestKeyOrAwaits : Prop :=
  ∀ (x : Reg) (s : State), decode (wordXKK 0xF#4 x 0x0A#8) = .instr (.ldVxK x) ∧
    (∀ k : Reg, s.key[k] = true → (∀ j : Reg, j < k → s.key[j] = false) →
      ∃ t, exec (.ldVxK x) s = .next t ∧ (t.readV x).toNat = k.val ∧ SameVBut x s t ∧
        t.pc = s.pc + 2#16 ∧ OnlyVPc s t) ∧
    ((∀ j : Reg, s.key[j] = false) →
      ∃ t, exec (.ldVxK x) s = .next t ∧ t.out.await = some x ∧ t.out.redraw = s.out.redraw ∧
        t = { s with out := t.out })
end

