-- ==== Sys2Proof/Laws/Memory.lean ====
section
/-! SUPPORT. The laws of memory: a read after a write to the same address gives the byte written, a
write leaves every other address alone, and every operation keeps the canonical form. -/

namespace Sys2Proof.Machine

@[simp] theorem Memory.read_nil (a : Nat) : Memory.read [] a = Memory.background a := rfl

theorem Memory.read_cell (c : Host.Cell) (m : Memory) (a : Nat) :
    Memory.read (c :: m) a = if a = c.1 then c.2 else Memory.read m a := rfl

theorem Memory.wfFrom_cell (lo : Nat) (c : Host.Cell) (m : Memory) :
    Memory.wfFrom lo (c :: m) = true ↔
      lo ≤ c.1 ∧ c.1 ≤ 0xFFF ∧ c.2 ≠ Memory.background c.1 ∧ Memory.wfFrom (c.1 + 1) m = true := by
  simp [Memory.wfFrom, and_assoc]

/-- A canonical list from `lo` is one from every smaller bound. -/
theorem Memory.wfFrom_mono {lo hi : Nat} {m : Memory} (h : Memory.wfFrom hi m = true) (hle : lo ≤ hi) :
    Memory.wfFrom lo m = true := by
  cases m with
  | nil => rfl
  | cons c m => rw [Memory.wfFrom_cell] at h ⊢; exact ⟨by omega, h.2⟩

/-- An address below the list's bound is not listed. -/
theorem Memory.read_below {lo : Nat} {m : Memory} (h : Memory.wfFrom lo m = true) {a : Nat}
    (ha : a < lo) : Memory.read m a = Memory.background a := by
  induction m generalizing lo with
  | nil => rfl
  | cons c m ih =>
    rw [Memory.wfFrom_cell] at h
    rw [Memory.read_cell, if_neg (by omega), ih h.2.2.2 (by omega)]

/-- An address above 0xFFF is not listed. -/
theorem Memory.read_above {lo : Nat} {m : Memory} (h : Memory.wfFrom lo m = true) {a : Nat}
    (ha : 0xFFF < a) : Memory.read m a = Memory.background a := by
  induction m generalizing lo with
  | nil => rfl
  | cons c m ih =>
    rw [Memory.wfFrom_cell] at h
    rw [Memory.read_cell, if_neg (by omega), ih h.2.2.2]

theorem Memory.read_cons {m : Memory} {a : Nat} (b : Byte) (x : Nat)
    (h : Memory.wfFrom (a + 1) m = true) :
    Memory.read (Memory.cons a b m) x = if x = a then b else Memory.read m x := by
  unfold Memory.cons
  split
  · split
    · subst_vars; exact Memory.read_below h (by omega)
    · rfl
  · rfl

theorem Memory.wfFrom_cons {lo a : Nat} {m : Memory} (b : Byte) (hlo : lo ≤ a) (ha : a ≤ 0xFFF)
    (h : Memory.wfFrom (a + 1) m = true) : Memory.wfFrom lo (Memory.cons a b m) = true := by
  unfold Memory.cons
  split
  · exact Memory.wfFrom_mono h (by omega)
  · rw [Memory.wfFrom_cell]; exact ⟨hlo, ha, ‹_›, h⟩

/-- A read after a write, at every address. -/
theorem Memory.read_write_from {lo : Nat} {m : Memory} (h : Memory.wfFrom lo m = true) (a x : Nat)
    (b : Byte) : Memory.read (Memory.write m a b) x = if x = a then b else Memory.read m x := by
  induction m generalizing lo with
  | nil => exact Memory.read_cons b x rfl
  | cons c m ih =>
    have h' := h
    rw [Memory.wfFrom_cell] at h
    unfold Memory.write
    split
    · exact Memory.read_cons b x (by rw [Memory.wfFrom_cell]; exact ⟨by omega, h.2⟩)
    · split
      · rw [Memory.read_cons b x (by simpa [‹a = c.1›] using h.2.2.2), Memory.read_cell]
        split <;> simp_all
      · rw [Memory.read_cell, ih h.2.2.2, Memory.read_cell]
        split <;> split <;> first | rfl | omega

/-- A write keeps the canonical form. -/
theorem Memory.wfFrom_write {lo : Nat} {m : Memory} (h : Memory.wfFrom lo m = true) {a : Nat} (b : Byte)
    (hlo : lo ≤ a) (ha : a ≤ 0xFFF) : Memory.wfFrom lo (Memory.write m a b) = true := by
  induction m generalizing lo with
  | nil => exact Memory.wfFrom_cons b hlo ha rfl
  | cons c m ih =>
    have h' := h
    rw [Memory.wfFrom_cell] at h
    unfold Memory.write
    split
    · exact Memory.wfFrom_cons b hlo ha (by rw [Memory.wfFrom_cell]; exact ⟨by omega, h.2⟩)
    · split
      · exact Memory.wfFrom_cons b hlo ha (by simpa [‹a = c.1›] using h.2.2.2)
      · rw [Memory.wfFrom_cell]; exact ⟨h.1, h.2.1, h.2.2.1, ih h.2.2.2 (by omega)⟩

/-! ### The three laws callers cite -/

theorem Memory.read_write {m : Memory} (h : Memory.wf m = true) (a x : Nat) (b : Byte) :
    Memory.read (Memory.write m a b) x = if x = a then b else Memory.read m x :=
  Memory.read_write_from h a x b

theorem Memory.read_write_same {m : Memory} (h : Memory.wf m = true) (a : Nat) (b : Byte) :
    Memory.read (Memory.write m a b) a = b := by simp [Memory.read_write h]

theorem Memory.wf_write {m : Memory} (h : Memory.wf m = true) {a : Nat} (b : Byte) (ha : a ≤ 0xFFF) :
    Memory.wf (Memory.write m a b) = true := Memory.wfFrom_write h b (Nat.zero_le a) ha

@[simp] theorem Memory.wf_nil : Memory.wf [] = true := rfl

/-- Equal reads everywhere make equal canonical memories. -/
theorem Memory.ext_from {lo : Nat} {m n : Memory} (hm : Memory.wfFrom lo m = true)
    (hn : Memory.wfFrom lo n = true) (h : ∀ a, Memory.read m a = Memory.read n a) : m = n := by
  induction m generalizing lo n with
  | nil =>
    cases n with
    | nil => rfl
    | cons c n =>
      rw [Memory.wfFrom_cell] at hn
      have := h c.1
      simp [Memory.read_cell] at this
      exact absurd this.symm hn.2.2.1
  | cons c m ih =>
    have hm' := (Memory.wfFrom_cell _ _ _).1 hm
    cases n with
    | nil =>
      have := h c.1
      simp [Memory.read_cell] at this
      exact absurd this hm'.2.2.1
    | cons d n =>
      have hn' := (Memory.wfFrom_cell _ _ _).1 hn
      have key : c.1 = d.1 := by
        rcases Nat.lt_trichotomy c.1 d.1 with hlt | heq | hgt
        · have h1 := h c.1
          rw [Memory.read_cell, if_pos rfl, Memory.read_cell, if_neg (by omega),
            Memory.read_below hn'.2.2.2 (by omega)] at h1
          exact absurd h1 hm'.2.2.1
        · exact heq
        · have h1 := h d.1
          rw [Memory.read_cell, if_neg (by omega), Memory.read_below hm'.2.2.2 (by omega),
            Memory.read_cell, if_pos rfl] at h1
          exact absurd h1.symm hn'.2.2.1
      have hv := h c.1
      rw [Memory.read_cell, if_pos rfl, Memory.read_cell, if_pos key] at hv
      have hcd : c = d := Prod.ext key hv
      subst hcd
      refine congrArg (c :: ·) (ih hm'.2.2.2 hn'.2.2.2 fun a => ?_)
      by_cases ha : a = c.1
      · subst ha
        rw [Memory.read_below hm'.2.2.2 (by omega), Memory.read_below hn'.2.2.2 (by omega)]
      · have := h a
        rwa [Memory.read_cell, if_neg ha, Memory.read_cell, if_neg ha] at this

theorem Memory.ext {m n : Memory} (hm : Memory.wf m = true) (hn : Memory.wf n = true)
    (h : ∀ a, Memory.read m a = Memory.read n a) : m = n := Memory.ext_from hm hn h

/-! ### A list of bytes written in a row -/

theorem Memory.wf_writeList {m : Memory} (h : Memory.wf m = true) {a : Nat} {bs : List Byte}
    (ha : a + bs.length ≤ 0x1000) : Memory.wf (Memory.writeList m a bs) = true := by
  induction bs generalizing m a with
  | nil => exact h
  | cons b bs ih =>
    simp only [List.length_cons] at ha
    exact ih (Memory.wf_write h b (by omega)) (by omega)

/-- After a list of bytes is written at `a`, the bytes of the range are the list's and every other byte
is as before. -/
theorem Memory.read_writeList {m : Memory} (h : Memory.wf m = true) {a : Nat} {bs : List Byte}
    (ha : a + bs.length ≤ 0x1000) (x : Nat) :
    Memory.read (Memory.writeList m a bs) x =
      if a ≤ x ∧ x < a + bs.length then bs.getD (x - a) 0#8 else Memory.read m x := by
  induction bs generalizing m a with
  | nil => rw [if_neg (by simp only [List.length_nil]; omega)]; rfl
  | cons b bs ih =>
    simp only [List.length_cons] at ha ⊢
    rw [Memory.writeList, ih (Memory.wf_write h b (by omega)) (by omega), Memory.read_write h]
    by_cases hx : x = a
    · subst hx
      rw [if_neg (by omega), if_pos rfl, if_pos (by omega)]
      simp
    · by_cases hr : a + 1 ≤ x ∧ x < a + 1 + bs.length
      · rw [if_pos hr, if_pos (by omega)]
        obtain ⟨k, hk⟩ : ∃ k, x - a = k + 1 := ⟨x - a - 1, by omega⟩
        rw [hk, show x - (a + 1) = k by omega]
        simp
      · rw [if_neg hr, if_neg hx, if_neg (by omega)]

end Sys2Proof.Machine
end

