-- ==== Sys2Proof/Laws/State.lean ====
section
/-! SUPPORT. What each update of the state gives each of its fields: one lemma per field per update,
and reading a register after each update. -/

namespace Sys2Proof.Machine

/-! ### writeV -/

@[simp] theorem State.writeV_v (x : Reg) (b : Byte) (s : State) : (s.writeV x b).v = s.v.set x b := rfl
@[simp] theorem State.writeV_i (x : Reg) (b : Byte) (s : State) : (s.writeV x b).i = s.i := rfl
@[simp] theorem State.writeV_dt (x : Reg) (b : Byte) (s : State) : (s.writeV x b).dt = s.dt := rfl
@[simp] theorem State.writeV_st (x : Reg) (b : Byte) (s : State) : (s.writeV x b).st = s.st := rfl
@[simp] theorem State.writeV_pc (x : Reg) (b : Byte) (s : State) : (s.writeV x b).pc = s.pc := rfl
@[simp] theorem State.writeV_stack (x : Reg) (b : Byte) (s : State) : (s.writeV x b).stack = s.stack := rfl
@[simp] theorem State.writeV_sp (x : Reg) (b : Byte) (s : State) : (s.writeV x b).sp = s.sp := rfl
@[simp] theorem State.writeV_mem (x : Reg) (b : Byte) (s : State) : (s.writeV x b).mem = s.mem := rfl
@[simp] theorem State.writeV_key (x : Reg) (b : Byte) (s : State) : (s.writeV x b).key = s.key := rfl
@[simp] theorem State.writeV_fault (x : Reg) (b : Byte) (s : State) : (s.writeV x b).fault = s.fault := rfl
@[simp] theorem State.writeV_out (x : Reg) (b : Byte) (s : State) : (s.writeV x b).out = s.out := rfl
@[simp] theorem State.writeV_rnd (x : Reg) (b : Byte) (s : State) : (s.writeV x b).rnd = s.rnd := rfl
@[simp] theorem State.writeV_draws (x : Reg) (b : Byte) (s : State) : (s.writeV x b).draws = s.draws := rfl

/-! ### setI -/

@[simp] theorem State.setI_v (w : Word) (s : State) : (s.setI w).v = s.v := rfl
@[simp] theorem State.setI_i (w : Word) (s : State) : (s.setI w).i = w := rfl
@[simp] theorem State.setI_dt (w : Word) (s : State) : (s.setI w).dt = s.dt := rfl
@[simp] theorem State.setI_st (w : Word) (s : State) : (s.setI w).st = s.st := rfl
@[simp] theorem State.setI_pc (w : Word) (s : State) : (s.setI w).pc = s.pc := rfl
@[simp] theorem State.setI_stack (w : Word) (s : State) : (s.setI w).stack = s.stack := rfl
@[simp] theorem State.setI_sp (w : Word) (s : State) : (s.setI w).sp = s.sp := rfl
@[simp] theorem State.setI_mem (w : Word) (s : State) : (s.setI w).mem = s.mem := rfl
@[simp] theorem State.setI_key (w : Word) (s : State) : (s.setI w).key = s.key := rfl
@[simp] theorem State.setI_fault (w : Word) (s : State) : (s.setI w).fault = s.fault := rfl
@[simp] theorem State.setI_out (w : Word) (s : State) : (s.setI w).out = s.out := rfl
@[simp] theorem State.setI_rnd (w : Word) (s : State) : (s.setI w).rnd = s.rnd := rfl
@[simp] theorem State.setI_draws (w : Word) (s : State) : (s.setI w).draws = s.draws := rfl
@[simp] theorem State.setI_readV (w : Word) (s : State) (y : Reg) : (s.setI w).readV y = s.readV y := rfl

/-! ### setDt -/

@[simp] theorem State.setDt_v (b : Byte) (s : State) : (s.setDt b).v = s.v := rfl
@[simp] theorem State.setDt_i (b : Byte) (s : State) : (s.setDt b).i = s.i := rfl
@[simp] theorem State.setDt_dt (b : Byte) (s : State) : (s.setDt b).dt = b := rfl
@[simp] theorem State.setDt_st (b : Byte) (s : State) : (s.setDt b).st = s.st := rfl
@[simp] theorem State.setDt_pc (b : Byte) (s : State) : (s.setDt b).pc = s.pc := rfl
@[simp] theorem State.setDt_stack (b : Byte) (s : State) : (s.setDt b).stack = s.stack := rfl
@[simp] theorem State.setDt_sp (b : Byte) (s : State) : (s.setDt b).sp = s.sp := rfl
@[simp] theorem State.setDt_mem (b : Byte) (s : State) : (s.setDt b).mem = s.mem := rfl
@[simp] theorem State.setDt_key (b : Byte) (s : State) : (s.setDt b).key = s.key := rfl
@[simp] theorem State.setDt_fault (b : Byte) (s : State) : (s.setDt b).fault = s.fault := rfl
@[simp] theorem State.setDt_out (b : Byte) (s : State) : (s.setDt b).out = s.out := rfl
@[simp] theorem State.setDt_rnd (b : Byte) (s : State) : (s.setDt b).rnd = s.rnd := rfl
@[simp] theorem State.setDt_draws (b : Byte) (s : State) : (s.setDt b).draws = s.draws := rfl
@[simp] theorem State.setDt_readV (b : Byte) (s : State) (y : Reg) : (s.setDt b).readV y = s.readV y := rfl

/-! ### setSt -/

@[simp] theorem State.setSt_v (b : Byte) (s : State) : (s.setSt b).v = s.v := rfl
@[simp] theorem State.setSt_i (b : Byte) (s : State) : (s.setSt b).i = s.i := rfl
@[simp] theorem State.setSt_dt (b : Byte) (s : State) : (s.setSt b).dt = s.dt := rfl
@[simp] theorem State.setSt_st (b : Byte) (s : State) : (s.setSt b).st = b := rfl
@[simp] theorem State.setSt_pc (b : Byte) (s : State) : (s.setSt b).pc = s.pc := rfl
@[simp] theorem State.setSt_stack (b : Byte) (s : State) : (s.setSt b).stack = s.stack := rfl
@[simp] theorem State.setSt_sp (b : Byte) (s : State) : (s.setSt b).sp = s.sp := rfl
@[simp] theorem State.setSt_mem (b : Byte) (s : State) : (s.setSt b).mem = s.mem := rfl
@[simp] theorem State.setSt_key (b : Byte) (s : State) : (s.setSt b).key = s.key := rfl
@[simp] theorem State.setSt_fault (b : Byte) (s : State) : (s.setSt b).fault = s.fault := rfl
@[simp] theorem State.setSt_out (b : Byte) (s : State) : (s.setSt b).out = s.out := rfl
@[simp] theorem State.setSt_rnd (b : Byte) (s : State) : (s.setSt b).rnd = s.rnd := rfl
@[simp] theorem State.setSt_draws (b : Byte) (s : State) : (s.setSt b).draws = s.draws := rfl
@[simp] theorem State.setSt_readV (b : Byte) (s : State) (y : Reg) : (s.setSt b).readV y = s.readV y := rfl

/-! ### setPc -/

@[simp] theorem State.setPc_v (w : Word) (s : State) : (s.setPc w).v = s.v := rfl
@[simp] theorem State.setPc_i (w : Word) (s : State) : (s.setPc w).i = s.i := rfl
@[simp] theorem State.setPc_dt (w : Word) (s : State) : (s.setPc w).dt = s.dt := rfl
@[simp] theorem State.setPc_st (w : Word) (s : State) : (s.setPc w).st = s.st := rfl
@[simp] theorem State.setPc_pc (w : Word) (s : State) : (s.setPc w).pc = w := rfl
@[simp] theorem State.setPc_stack (w : Word) (s : State) : (s.setPc w).stack = s.stack := rfl
@[simp] theorem State.setPc_sp (w : Word) (s : State) : (s.setPc w).sp = s.sp := rfl
@[simp] theorem State.setPc_mem (w : Word) (s : State) : (s.setPc w).mem = s.mem := rfl
@[simp] theorem State.setPc_key (w : Word) (s : State) : (s.setPc w).key = s.key := rfl
@[simp] theorem State.setPc_fault (w : Word) (s : State) : (s.setPc w).fault = s.fault := rfl
@[simp] theorem State.setPc_out (w : Word) (s : State) : (s.setPc w).out = s.out := rfl
@[simp] theorem State.setPc_rnd (w : Word) (s : State) : (s.setPc w).rnd = s.rnd := rfl
@[simp] theorem State.setPc_draws (w : Word) (s : State) : (s.setPc w).draws = s.draws := rfl
@[simp] theorem State.setPc_readV (w : Word) (s : State) (y : Reg) : (s.setPc w).readV y = s.readV y := rfl

/-! ### setStack -/

@[simp] theorem State.setStack_v (k : StackEntries) (p : StackPointer) (s : State) : (s.setStack k p).v = s.v := rfl
@[simp] theorem State.setStack_i (k : StackEntries) (p : StackPointer) (s : State) : (s.setStack k p).i = s.i := rfl
@[simp] theorem State.setStack_dt (k : StackEntries) (p : StackPointer) (s : State) : (s.setStack k p).dt = s.dt := rfl
@[simp] theorem State.setStack_st (k : StackEntries) (p : StackPointer) (s : State) : (s.setStack k p).st = s.st := rfl
@[simp] theorem State.setStack_pc (k : StackEntries) (p : StackPointer) (s : State) : (s.setStack k p).pc = s.pc := rfl
@[simp] theorem State.setStack_stack (k : StackEntries) (p : StackPointer) (s : State) : (s.setStack k p).stack = k := rfl
@[simp] theorem State.setStack_sp (k : StackEntries) (p : StackPointer) (s : State) : (s.setStack k p).sp = p := rfl
@[simp] theorem State.setStack_mem (k : StackEntries) (p : StackPointer) (s : State) : (s.setStack k p).mem = s.mem := rfl
@[simp] theorem State.setStack_key (k : StackEntries) (p : StackPointer) (s : State) : (s.setStack k p).key = s.key := rfl
@[simp] theorem State.setStack_fault (k : StackEntries) (p : StackPointer) (s : State) : (s.setStack k p).fault = s.fault := rfl
@[simp] theorem State.setStack_out (k : StackEntries) (p : StackPointer) (s : State) : (s.setStack k p).out = s.out := rfl
@[simp] theorem State.setStack_rnd (k : StackEntries) (p : StackPointer) (s : State) : (s.setStack k p).rnd = s.rnd := rfl
@[simp] theorem State.setStack_draws (k : StackEntries) (p : StackPointer) (s : State) : (s.setStack k p).draws = s.draws := rfl
@[simp] theorem State.setStack_readV (k : StackEntries) (p : StackPointer) (s : State) (y : Reg) : (s.setStack k p).readV y = s.readV y := rfl

/-! ### setMem -/

@[simp] theorem State.setMem_v (m : Memory) (s : State) : (s.setMem m).v = s.v := rfl
@[simp] theorem State.setMem_i (m : Memory) (s : State) : (s.setMem m).i = s.i := rfl
@[simp] theorem State.setMem_dt (m : Memory) (s : State) : (s.setMem m).dt = s.dt := rfl
@[simp] theorem State.setMem_st (m : Memory) (s : State) : (s.setMem m).st = s.st := rfl
@[simp] theorem State.setMem_pc (m : Memory) (s : State) : (s.setMem m).pc = s.pc := rfl
@[simp] theorem State.setMem_stack (m : Memory) (s : State) : (s.setMem m).stack = s.stack := rfl
@[simp] theorem State.setMem_sp (m : Memory) (s : State) : (s.setMem m).sp = s.sp := rfl
@[simp] theorem State.setMem_mem (m : Memory) (s : State) : (s.setMem m).mem = m := rfl
@[simp] theorem State.setMem_key (m : Memory) (s : State) : (s.setMem m).key = s.key := rfl
@[simp] theorem State.setMem_fault (m : Memory) (s : State) : (s.setMem m).fault = s.fault := rfl
@[simp] theorem State.setMem_out (m : Memory) (s : State) : (s.setMem m).out = s.out := rfl
@[simp] theorem State.setMem_rnd (m : Memory) (s : State) : (s.setMem m).rnd = s.rnd := rfl
@[simp] theorem State.setMem_draws (m : Memory) (s : State) : (s.setMem m).draws = s.draws := rfl
@[simp] theorem State.setMem_readV (m : Memory) (s : State) (y : Reg) : (s.setMem m).readV y = s.readV y := rfl

/-! ### writeKey -/

@[simp] theorem State.writeKey_v (k : Reg) (p : Bool) (s : State) : (s.writeKey k p).v = s.v := rfl
@[simp] theorem State.writeKey_i (k : Reg) (p : Bool) (s : State) : (s.writeKey k p).i = s.i := rfl
@[simp] theorem State.writeKey_dt (k : Reg) (p : Bool) (s : State) : (s.writeKey k p).dt = s.dt := rfl
@[simp] theorem State.writeKey_st (k : Reg) (p : Bool) (s : State) : (s.writeKey k p).st = s.st := rfl
@[simp] theorem State.writeKey_pc (k : Reg) (p : Bool) (s : State) : (s.writeKey k p).pc = s.pc := rfl
@[simp] theorem State.writeKey_stack (k : Reg) (p : Bool) (s : State) : (s.writeKey k p).stack = s.stack := rfl
@[simp] theorem State.writeKey_sp (k : Reg) (p : Bool) (s : State) : (s.writeKey k p).sp = s.sp := rfl
@[simp] theorem State.writeKey_mem (k : Reg) (p : Bool) (s : State) : (s.writeKey k p).mem = s.mem := rfl
@[simp] theorem State.writeKey_key (k : Reg) (p : Bool) (s : State) : (s.writeKey k p).key = s.key.set k p := rfl
@[simp] theorem State.writeKey_fault (k : Reg) (p : Bool) (s : State) : (s.writeKey k p).fault = s.fault := rfl
@[simp] theorem State.writeKey_out (k : Reg) (p : Bool) (s : State) : (s.writeKey k p).out = s.out := rfl
@[simp] theorem State.writeKey_rnd (k : Reg) (p : Bool) (s : State) : (s.writeKey k p).rnd = s.rnd := rfl
@[simp] theorem State.writeKey_draws (k : Reg) (p : Bool) (s : State) : (s.writeKey k p).draws = s.draws := rfl
@[simp] theorem State.writeKey_readV (k : Reg) (p : Bool) (s : State) (y : Reg) : (s.writeKey k p).readV y = s.readV y := rfl

/-! ### setFault -/

@[simp] theorem State.setFault_v (f : Option Fault) (s : State) : (s.setFault f).v = s.v := rfl
@[simp] theorem State.setFault_i (f : Option Fault) (s : State) : (s.setFault f).i = s.i := rfl
@[simp] theorem State.setFault_dt (f : Option Fault) (s : State) : (s.setFault f).dt = s.dt := rfl
@[simp] theorem State.setFault_st (f : Option Fault) (s : State) : (s.setFault f).st = s.st := rfl
@[simp] theorem State.setFault_pc (f : Option Fault) (s : State) : (s.setFault f).pc = s.pc := rfl
@[simp] theorem State.setFault_stack (f : Option Fault) (s : State) : (s.setFault f).stack = s.stack := rfl
@[simp] theorem State.setFault_sp (f : Option Fault) (s : State) : (s.setFault f).sp = s.sp := rfl
@[simp] theorem State.setFault_mem (f : Option Fault) (s : State) : (s.setFault f).mem = s.mem := rfl
@[simp] theorem State.setFault_key (f : Option Fault) (s : State) : (s.setFault f).key = s.key := rfl
@[simp] theorem State.setFault_fault (f : Option Fault) (s : State) : (s.setFault f).fault = f := rfl
@[simp] theorem State.setFault_out (f : Option Fault) (s : State) : (s.setFault f).out = s.out := rfl
@[simp] theorem State.setFault_rnd (f : Option Fault) (s : State) : (s.setFault f).rnd = s.rnd := rfl
@[simp] theorem State.setFault_draws (f : Option Fault) (s : State) : (s.setFault f).draws = s.draws := rfl
@[simp] theorem State.setFault_readV (f : Option Fault) (s : State) (y : Reg) : (s.setFault f).readV y = s.readV y := rfl

/-! ### setOut -/

@[simp] theorem State.setOut_v (o : Output) (s : State) : (s.setOut o).v = s.v := rfl
@[simp] theorem State.setOut_i (o : Output) (s : State) : (s.setOut o).i = s.i := rfl
@[simp] theorem State.setOut_dt (o : Output) (s : State) : (s.setOut o).dt = s.dt := rfl
@[simp] theorem State.setOut_st (o : Output) (s : State) : (s.setOut o).st = s.st := rfl
@[simp] theorem State.setOut_pc (o : Output) (s : State) : (s.setOut o).pc = s.pc := rfl
@[simp] theorem State.setOut_stack (o : Output) (s : State) : (s.setOut o).stack = s.stack := rfl
@[simp] theorem State.setOut_sp (o : Output) (s : State) : (s.setOut o).sp = s.sp := rfl
@[simp] theorem State.setOut_mem (o : Output) (s : State) : (s.setOut o).mem = s.mem := rfl
@[simp] theorem State.setOut_key (o : Output) (s : State) : (s.setOut o).key = s.key := rfl
@[simp] theorem State.setOut_fault (o : Output) (s : State) : (s.setOut o).fault = s.fault := rfl
@[simp] theorem State.setOut_out (o : Output) (s : State) : (s.setOut o).out = o := rfl
@[simp] theorem State.setOut_rnd (o : Output) (s : State) : (s.setOut o).rnd = s.rnd := rfl
@[simp] theorem State.setOut_draws (o : Output) (s : State) : (s.setOut o).draws = s.draws := rfl
@[simp] theorem State.setOut_readV (o : Output) (s : State) (y : Reg) : (s.setOut o).readV y = s.readV y := rfl

/-! ### setRnd -/

@[simp] theorem State.setRnd_v (r : Byte) (n : Nat) (s : State) : (s.setRnd r n).v = s.v := rfl
@[simp] theorem State.setRnd_i (r : Byte) (n : Nat) (s : State) : (s.setRnd r n).i = s.i := rfl
@[simp] theorem State.setRnd_dt (r : Byte) (n : Nat) (s : State) : (s.setRnd r n).dt = s.dt := rfl
@[simp] theorem State.setRnd_st (r : Byte) (n : Nat) (s : State) : (s.setRnd r n).st = s.st := rfl
@[simp] theorem State.setRnd_pc (r : Byte) (n : Nat) (s : State) : (s.setRnd r n).pc = s.pc := rfl
@[simp] theorem State.setRnd_stack (r : Byte) (n : Nat) (s : State) : (s.setRnd r n).stack = s.stack := rfl
@[simp] theorem State.setRnd_sp (r : Byte) (n : Nat) (s : State) : (s.setRnd r n).sp = s.sp := rfl
@[simp] theorem State.setRnd_mem (r : Byte) (n : Nat) (s : State) : (s.setRnd r n).mem = s.mem := rfl
@[simp] theorem State.setRnd_key (r : Byte) (n : Nat) (s : State) : (s.setRnd r n).key = s.key := rfl
@[simp] theorem State.setRnd_fault (r : Byte) (n : Nat) (s : State) : (s.setRnd r n).fault = s.fault := rfl
@[simp] theorem State.setRnd_out (r : Byte) (n : Nat) (s : State) : (s.setRnd r n).out = s.out := rfl
@[simp] theorem State.setRnd_rnd (r : Byte) (n : Nat) (s : State) : (s.setRnd r n).rnd = r := rfl
@[simp] theorem State.setRnd_draws (r : Byte) (n : Nat) (s : State) : (s.setRnd r n).draws = n := rfl
@[simp] theorem State.setRnd_readV (r : Byte) (n : Nat) (s : State) (y : Reg) : (s.setRnd r n).readV y = s.readV y := rfl

/-! ### Reading a register after writing one -/

/-- A register reads as what was written to it, every other as before. -/
theorem State.readV_writeV (x y : Reg) (b : Byte) (s : State) :
    (s.writeV x b).readV y = if y = x then b else s.readV y := by
  simp only [State.readV, State.writeV, Fin.getElem_fin, Vector.getElem_set, Fin.ext_iff]
  split <;> split <;> first | rfl | omega

@[simp] theorem State.readV_writeV_same (x : Reg) (b : Byte) (s : State) :
    (s.writeV x b).readV x = b := by simp [State.readV_writeV]

theorem State.readV_writeV_ne {x y : Reg} (b : Byte) (s : State) (h : y ≠ x) :
    (s.writeV x b).readV y = s.readV y := by simp [State.readV_writeV, h]

/-- A key reads as the event left it, every other as before. -/
theorem State.key_writeKey (k j : Reg) (p : Bool) (s : State) :
    (s.writeKey k p).key[j] = if j = k then p else s.key[j] := by
  simp only [State.writeKey, Fin.getElem_fin, Vector.getElem_set, Fin.ext_iff]
  split <;> split <;> first | rfl | omega

/-- Two states with equal fields are equal. -/
theorem State.ext_fields {s t : State} (hv : s.v = t.v) (hi : s.i = t.i) (hdt : s.dt = t.dt)
    (hst : s.st = t.st) (hpc : s.pc = t.pc) (hstack : s.stack = t.stack) (hsp : s.sp = t.sp)
    (hmem : s.mem = t.mem) (hkey : s.key = t.key) (hfault : s.fault = t.fault) (hout : s.out = t.out)
    (hrnd : s.rnd = t.rnd) (hdraws : s.draws = t.draws) : s = t := by
  cases s; cases t; simp_all

end Sys2Proof.Machine
end

