-- ==== Sys2Proof/Laws/Ops.lean ====
section
/-! SUPPORT. What each shared operation can do, said once: the counters, the call stack, faults, the
fetch, the key search, and the parameters of this hardware. -/

namespace Sys2Proof.Machine

/-! ### The parameters -/

@[simp] theorem parameters_progBase : parameters.progBase = 0x200 := rfl
@[simp] theorem parameters_fontBase : parameters.fontBase = 0 := rfl
@[simp] theorem parameters_fbBase : parameters.fbBase = 0x100 := rfl
@[simp] theorem parameters_fontData : parameters.fontData = fontBytes := rfl
@[simp] theorem parameters_timerPhase : parameters.timerPhase = .before := rfl
@[simp] theorem parameters_drawWrap : parameters.drawWrap = .linear := rfl

/-- Not a simp lemma: the depth stands in the types of the stack and its pointer. -/
theorem parameters_stackDepth : parameters.stackDepth = 16 := rfl

/-- The font covers addresses below 80; every other unlisted address reads as zero. -/
theorem Memory.background_above {a : Nat} (h : 80 ≤ a) : Memory.background a = 0#8 := by
  have hl : fontBytes.length = 80 := rfl
  have hn : fontBytes[a]? = none := List.getElem?_eq_none (by omega)
  simp [Memory.background, List.getD_eq_getElem?_getD, hn]

/-! ### Counters -/

/-- A counter one step later is one less, and stays at zero (10_state.md R27). -/
theorem countDown_toNat (b : Byte) : (countDown b).toNat = b.toNat - 1 := by
  unfold countDown
  split
  · simp_all
  · rename_i h
    have hpos : b.toNat ≠ 0 := fun h0 => h (BitVec.eq_of_toNat_eq (by simpa using h0))
    rw [BitVec.toNat_sub_of_le (by rw [BitVec.le_def]; simp; omega)]
    simp

/-! ### The call stack -/

/-- The pointer is at most 16 (10_state.md R25). -/
theorem stackPointer_le (p : StackPointer) : p.val ≤ 16 := Nat.lt_succ_iff.1 p.isLt

/-- An index of the stack is below 16. -/
theorem stackIndex_lt (j : Fin parameters.stackDepth) : j.val < 16 := j.isLt

@[simp] theorem spDown_val (p : StackPointer) : (spDown p).val = p.val - 1 := rfl

theorem spUp_val {p : StackPointer} (h : p.val < 16) : (spUp p).val = p.val + 1 := by
  simp only [spUp, parameters_stackDepth]; omega

/-- With a live entry, the top is the entry below the pointer (10_state.md R25). -/
theorem State.top_eq {s : State} (j : Fin parameters.stackDepth) (h : j.val + 1 = s.sp.val) :
    s.top = s.stack[j] := by
  have hj : s.sp.val - 1 = j.val := by omega
  rw [State.top, hj]; simp

/-- After a push, a pop finds the pushed word and the old pointer. -/
theorem State.top_push {s : State} (a : Word) (h : s.sp.val < 16) :
    (s.push a).top = a ∧ spDown (s.push a).sp = s.sp := by
  constructor
  · have hd : s.sp.val < parameters.stackDepth := h
    simp [State.top, State.push, spUp_val h, hd]
  · apply Fin.ext; simp [State.push, spUp_val h]

/-- A push changes only the entry at the old pointer. -/
theorem State.push_stack {s : State} (a : Word) (j : Fin parameters.stackDepth) :
    (s.push a).stack[j] = if j.val = s.sp.val then a else s.stack[j] := by
  simp only [State.push, State.setStack_stack, Fin.getElem_fin, Vector.getElem_setIfInBounds]
  split <;> split <;> first | rfl | omega

/-! ### Faults -/

/-- Taking a fault sets the latch, clears the result, and leaves everything else. -/
theorem State.takeFault_eq (f : Fault) (s : State) :
    s.takeFault f = { s with fault := some f, out := Output.none } := rfl

theorem guarded_some {c : Option Fault} {f : Fault} (h : c = some f) (g : State → State) (s : State) :
    guarded c g s = s.takeFault f := by subst h; rfl

theorem guarded_none {c : Option Fault} (h : c = none) (g : State → State) (s : State) :
    guarded c g s = g s := by subst h; rfl

theorem rangeFault_none {s : State} {last : Nat} :
    rangeFault s last = none ↔ s.i.toNat + last ≤ 0xFFF := by
  unfold rangeFault State.ea; split <;> simp <;> omega

theorem rangeFault_some {s : State} {last : Nat} (h : 0xFFF < s.i.toNat + last) :
    rangeFault s last = some .addressOutOfRange := by
  unfold rangeFault State.ea; rw [if_pos (by omega)]

theorem drawFault_none {s : State} {n : Reg} :
    drawFault n s = none ↔ n.val = 0 ∨ s.i.toNat + n.val - 1 ≤ 0xFFF := by
  unfold drawFault
  split
  · simp_all
  · rw [rangeFault_none]; omega

theorem drawFault_some {s : State} {n : Reg} (h0 : n.val ≠ 0) (h : 0xFFF < s.i.toNat + n.val - 1) :
    drawFault n s = some .addressOutOfRange := by
  unfold drawFault; rw [if_neg h0, rangeFault_some (by omega)]

theorem callFault_none {s : State} : callFault s = none ↔ s.sp.val < 16 := by
  have h := stackPointer_le s.sp
  show (if s.sp.val = 16 then some Fault.stackOverflow else none) = none ↔ _
  split <;> simp <;> omega

theorem callFault_some {s : State} (h : s.sp.val = 16) : callFault s = some .stackOverflow := by
  unfold callFault; exact if_pos h

theorem retFault_none {s : State} : retFault s = none ↔ s.sp.val ≠ 0 := by
  unfold retFault; split <;> simp_all

theorem retFault_some {s : State} (h : s.sp.val = 0) : retFault s = some .stackUnderflow := by
  unfold retFault; rw [if_pos h]

/-! ### Fetch -/

/-- A fetch answers the two bytes at `pc`, the lower address first, exactly when pc ≤ 0xFFE. -/
theorem State.fetch_some {s : State} (h : s.pc.toNat ≤ 0xFFE) :
    s.fetch = some (Memory.read s.mem s.pc.toNat ++ Memory.read s.mem (s.pc.toNat + 1)) := by
  unfold State.fetch; rw [if_pos h]; rfl

theorem State.fetch_none {s : State} (h : 0xFFE < s.pc.toNat) : s.fetch = none := by
  unfold State.fetch; rw [if_neg (by omega)]

theorem State.fetch_bound {s : State} {w : Word} (h : s.fetch = some w) : s.pc.toNat ≤ 0xFFE := by
  unfold State.fetch at h; split at h <;> simp_all

/-! ### Keys -/

/-- The search answers the least pressed key. -/
theorem lowestPressed_some {key : Vector Bool 16} {k : Reg} :
    lowestPressed key = some k ↔ key[k] = true ∧ ∀ j : Reg, j < k → key[j] = false := by
  unfold lowestPressed
  rw [List.find?_eq_some_iff_getElem]
  constructor
  · rintro ⟨hk, i, hi, hik, hlt⟩
    simp only [List.getElem_finRange, List.length_finRange] at hik hlt hi
    subst hik
    refine ⟨hk, fun j hj => ?_⟩
    have := hlt j.val hj
    simpa using this
  · rintro ⟨hk, hlt⟩
    refine ⟨hk, k.val, by simp, by simp, fun j hj => ?_⟩
    have := hlt ⟨j, by omega⟩ hj
    simpa using this

/-- The search answers nothing exactly when no key is pressed. -/
theorem lowestPressed_none {key : Vector Bool 16} :
    lowestPressed key = none ↔ ∀ k : Reg, key[k] = false := by
  unfold lowestPressed
  rw [List.find?_eq_none]
  simp

end Sys2Proof.Machine
end

