-- ==== Sys2Proof/Laws/Blocks.lean ====
section
/-! SUPPORT. What the block operations do: storing registers, loading registers, clearing the
framebuffer. -/

namespace Sys2Proof.Machine

/-! ### Storing registers (43_index_memory.md R154) -/

theorem storeRegs_wf {s : State} (h : Memory.wf s.mem = true) {k : Nat}
    (hk : s.i.toNat + k ≤ 0x1000) : Memory.wf (storeRegs s k) = true := by
  induction k with
  | zero => exact h
  | succ k ih => exact Memory.wf_write (ih (by omega)) _ (by unfold State.ea; omega)

/-- After storing `k` registers, byte `I + j` is register `j` for j < k, every other byte as before. -/
theorem storeRegs_read {s : State} (h : Memory.wf s.mem = true) {k : Nat}
    (hk : s.i.toNat + k ≤ 0x1000) (a : Nat) :
    Memory.read (storeRegs s k) a =
      if s.i.toNat ≤ a ∧ a < s.i.toNat + k then s.readV (Fin.ofNat 16 (a - s.i.toNat))
      else Memory.read s.mem a := by
  induction k with
  | zero => rw [if_neg (by omega)]; rfl
  | succ k ih =>
    rw [storeRegs, Memory.read_write (storeRegs_wf h (by omega)), ih (by omega)]
    unfold State.ea
    by_cases ha : a = s.i.toNat + k
    · subst ha
      rw [if_pos rfl, if_pos (by omega)]
      simp
    · rw [if_neg ha]
      congr 1
      exact propext ⟨fun _ => by omega, fun _ => by omega⟩

/-! ### Loading registers (R155) -/

/-- After loading `k` registers, register `j` is byte `I + j` for j < k, every other as before. -/
theorem loadRegs_readV {s : State} {k : Nat} (hk : k ≤ 16) (y : Reg) :
    (loadRegs s k).readV y =
      if y.val < k then Memory.read s.mem (s.i.toNat + y.val) else s.readV y := by
  induction k with
  | zero => rfl
  | succ k ih =>
    rw [loadRegs, State.readV_writeV, ih (by omega)]
    unfold State.ea
    have hv : (Fin.ofNat 16 k).val = k := Nat.mod_eq_of_lt (by omega)
    by_cases hy : y = Fin.ofNat 16 k
    · subst hy
      rw [if_pos rfl, if_pos (by omega), hv]
    · have hne : y.val ≠ k := fun h => hy (Fin.ext (by rw [hv]; exact h))
      rw [if_neg hy]
      congr 1
      exact propext ⟨fun _ => by omega, fun _ => by omega⟩

/-- Loading registers changes nothing but registers. -/
theorem loadRegs_eq (s : State) (k : Nat) : ∃ v, loadRegs s k = { s with v := v } := by
  induction k with
  | zero => exact ⟨s.v, rfl⟩
  | succ k ih =>
    obtain ⟨v, hv⟩ := ih
    exact ⟨v.set (Fin.ofNat 16 k) (Memory.read s.mem (s.ea k)), by rw [loadRegs, hv]; rfl⟩

/-! ### Clearing the framebuffer (44_draw.md R170) -/

theorem clearBytes_wf {m : Memory} (h : Memory.wf m = true) {k : Nat} (hk : k ≤ 256) :
    Memory.wf (clearBytes m k) = true := by
  induction k with
  | zero => exact h
  | succ k ih => exact Memory.wf_write (ih (by omega)) _ (by simp; omega)

/-- After clearing `k` bytes, they read zero and every other byte as before. -/
theorem clearBytes_read {m : Memory} (h : Memory.wf m = true) {k : Nat} (hk : k ≤ 256) (a : Nat) :
    Memory.read (clearBytes m k) a =
      if parameters.fbBase ≤ a ∧ a < parameters.fbBase + k then 0#8 else Memory.read m a := by
  induction k with
  | zero => rw [if_neg (by omega)]; rfl
  | succ k ih =>
    rw [clearBytes, Memory.read_write (clearBytes_wf h (by omega)), ih (by omega)]
    by_cases ha : a = parameters.fbBase + k
    · rw [if_pos ha, if_pos (by omega)]
    · rw [if_neg ha]
      congr 1
      exact propext ⟨fun _ => by omega, fun _ => by omega⟩

end Sys2Proof.Machine
end

