-- ==== Sys2Proof/Laws/Decode.lean ====
section
/-! SUPPORT. The fields of a word and the words of the formats as natural numbers, so that facts about
decoding and encoding are linear arithmetic. -/

namespace Sys2Proof

/-- The number of a concatenation. -/
theorem toNat_append_eq {m n : Nat} (a : BitVec m) (b : BitVec n) :
    (a ++ b).toNat = a.toNat * 2 ^ n + b.toNat := by
  rw [BitVec.toNat_append, ← Nat.shiftLeft_add_eq_or_of_lt b.isLt, Nat.shiftLeft_eq]

/-! ### Fields (30_encoding.md R71) -/

theorem opClass_toNat (w : Word) : (opClass w).toNat = w.toNat / 4096 := by
  have := w.isLt
  simp only [opClass, BitVec.extractLsb'_toNat, Nat.shiftRight_eq_div_pow]; omega

theorem opX_val (w : Word) : (opX w).val = w.toNat / 256 % 16 := by
  change (w.extractLsb' 8 4).toNat = _
  simp only [BitVec.extractLsb'_toNat, Nat.shiftRight_eq_div_pow]

theorem opY_val (w : Word) : (opY w).val = w.toNat / 16 % 16 := by
  change (w.extractLsb' 4 4).toNat = _
  simp only [BitVec.extractLsb'_toNat, Nat.shiftRight_eq_div_pow]

theorem opN_val (w : Word) : (opN w).val = w.toNat % 16 := by
  change (w.extractLsb' 0 4).toNat = _
  simp only [BitVec.extractLsb'_toNat, Nat.shiftRight_eq_div_pow]; omega

theorem opKK_toNat (w : Word) : (opKK w).toNat = w.toNat % 256 := by
  simp only [opKK, BitVec.extractLsb'_toNat, Nat.shiftRight_zero]

theorem opNNN_toNat (w : Word) : (opNNN w).toNat = w.toNat % 4096 := by
  simp only [opNNN, BitVec.extractLsb'_toNat, Nat.shiftRight_zero]

/-! ### Words (R73) -/

theorem nibble_toNat (x : Reg) : (nibble x).toNat = x.val := rfl

theorem wordOfBytes_toNat (b0 b1 : Byte) :
    (wordOfBytes b0 b1).toNat = b0.toNat * 256 + b1.toNat := toNat_append_eq b0 b1

theorem wordNNN_toNat (cls : BitVec 4) (nnn : Addr12) :
    (wordNNN cls nnn).toNat = cls.toNat * 4096 + nnn.toNat := toNat_append_eq cls nnn

theorem wordXKK_toNat (cls : BitVec 4) (x : Reg) (kk : Byte) :
    (wordXKK cls x kk).toNat = cls.toNat * 4096 + x.val * 256 + kk.toNat := by
  have h : (wordXKK cls x kk).toNat = (cls ++ nibble x ++ kk).toNat := rfl
  rw [h, toNat_append_eq, toNat_append_eq, nibble_toNat]; omega

theorem wordXYN_toNat (cls : BitVec 4) (x y : Reg) (n : BitVec 4) :
    (wordXYN cls x y n).toNat = cls.toNat * 4096 + x.val * 256 + y.val * 16 + n.toNat := by
  have h : (wordXYN cls x y n).toNat = (cls ++ nibble x ++ nibble y ++ n).toNat := rfl
  rw [h, toNat_append_eq, toNat_append_eq, toNat_append_eq, nibble_toNat, nibble_toNat]; omega

/-! ### The fields of the formats -/

@[simp] theorem opClass_wordNNN (cls : BitVec 4) (nnn : Addr12) : opClass (wordNNN cls nnn) = cls := by
  apply BitVec.eq_of_toNat_eq; rw [opClass_toNat, wordNNN_toNat]; omega

@[simp] theorem opNNN_wordNNN (cls : BitVec 4) (nnn : Addr12) : opNNN (wordNNN cls nnn) = nnn := by
  apply BitVec.eq_of_toNat_eq; rw [opNNN_toNat, wordNNN_toNat]; omega

@[simp] theorem opClass_wordXKK (cls : BitVec 4) (x : Reg) (kk : Byte) :
    opClass (wordXKK cls x kk) = cls := by
  apply BitVec.eq_of_toNat_eq; rw [opClass_toNat, wordXKK_toNat]; omega

@[simp] theorem opX_wordXKK (cls : BitVec 4) (x : Reg) (kk : Byte) : opX (wordXKK cls x kk) = x := by
  apply Fin.ext; rw [opX_val, wordXKK_toNat]; omega

@[simp] theorem opKK_wordXKK (cls : BitVec 4) (x : Reg) (kk : Byte) : opKK (wordXKK cls x kk) = kk := by
  apply BitVec.eq_of_toNat_eq; rw [opKK_toNat, wordXKK_toNat]; omega

@[simp] theorem opClass_wordXYN (cls : BitVec 4) (x y : Reg) (n : BitVec 4) :
    opClass (wordXYN cls x y n) = cls := by
  apply BitVec.eq_of_toNat_eq; rw [opClass_toNat, wordXYN_toNat]; omega

@[simp] theorem opX_wordXYN (cls : BitVec 4) (x y : Reg) (n : BitVec 4) :
    opX (wordXYN cls x y n) = x := by
  apply Fin.ext; rw [opX_val, wordXYN_toNat]; omega

@[simp] theorem opY_wordXYN (cls : BitVec 4) (x y : Reg) (n : BitVec 4) :
    opY (wordXYN cls x y n) = y := by
  apply Fin.ext; rw [opY_val, wordXYN_toNat]; omega

@[simp] theorem opN_wordXYN (cls : BitVec 4) (x y : Reg) (n : BitVec 4) :
    (opN (wordXYN cls x y n)).val = n.toNat := by
  rw [opN_val, wordXYN_toNat]; omega

end Sys2Proof
end

