-- ==== Sys2Proof/Laws/Draw.lean ====
section
/-! SUPPORT. What the blitter does, pixel by pixel: an XOR of one pixel, of a row, and of a sprite.
The pixel indexes of a row are distinct, so a row's collision is read off the memory before it. -/

namespace Sys2Proof.Machine

theorem pixelAddr_bound {p : Nat} (h : p < 2048) :
    parameters.fbBase ≤ pixelAddr p ∧ pixelAddr p < parameters.fbBase + 256 := by
  unfold pixelAddr; omega

theorem pixelIndex_eq (x0 y0 r c : Nat) : pixelIndex x0 y0 r c = ((y0 + r) * 64 + x0 + c) % 2048 := rfl

theorem pixelIndex_lt (x0 y0 r c : Nat) : pixelIndex x0 y0 r c < 2048 := Nat.mod_lt _ (by omega)

/-- Two columns of one row lie on different pixels. -/
theorem pixelIndex_inj {x0 y0 r c d : Nat} (hc : c < 8) (hd : d < 8)
    (h : pixelIndex x0 y0 r c = pixelIndex x0 y0 r d) : c = d := by
  simp only [pixelIndex_eq] at h; omega

/-- Address and bit tell pixels apart. -/
theorem pixel_coords {p q : Nat} (ha : pixelAddr p = pixelAddr q) (hb : pixelBit p = pixelBit q) :
    p = q := by
  unfold pixelAddr at ha; unfold pixelBit at hb; omega

theorem xorPixel_wf {m : Memory} (h : Memory.wf m = true) {p : Nat} (hp : p < 2048) (s : Bool) :
    Memory.wf (xorPixel m p s) = true :=
  Memory.wf_write h _ (by have := pixelAddr_bound hp; simp at this; omega)

/-- An XOR of one pixel changes that pixel by the sprite bit and no other. -/
theorem xorPixel_pixel {m : Memory} (h : Memory.wf m = true) (p q : Nat) (s : Bool) :
    pixel (xorPixel m p s) q = (pixel m q ^^ (s && decide (q = p))) := by
  unfold pixel xorPixel
  rw [Memory.read_write h]
  by_cases ha : pixelAddr q = pixelAddr p
  · rw [if_pos ha, ha, BitVec.getLsbD_xor]
    congr 1
    have hlt : pixelBit q < 8 := by unfold pixelBit; omega
    cases s
    · simp
    · by_cases hqp : q = p
      · subst hqp; simp [hlt]
      · have : pixelBit q ≠ pixelBit p := fun hb => hqp (pixel_coords ha hb)
        simp [BitVec.getLsbD_twoPow, hqp, Ne.symm this]
  · rw [if_neg ha]
    have : q ≠ p := fun hqp => ha (by rw [hqp])
    simp [this]

/-- An XOR of one pixel leaves every byte but the pixel's. -/
theorem xorPixel_read {m : Memory} (h : Memory.wf m = true) {p a : Nat} (s : Bool)
    (ha : a ≠ pixelAddr p) : Memory.read (xorPixel m p s) a = Memory.read m a := by
  unfold xorPixel; rw [Memory.read_write h, if_neg ha]

/-- The pixels a row's first `k` columns set. -/
def rowHits (x0 y0 r : Nat) (b : Byte) (k p : Nat) : Bool :=
  (List.range k).any (fun c => spriteBit b c && decide (p = pixelIndex x0 y0 r c))

theorem rowHits_succ (x0 y0 r : Nat) (b : Byte) (k p : Nat) :
    rowHits x0 y0 r b (k + 1) p =
      (rowHits x0 y0 r b k p || (spriteBit b k && decide (p = pixelIndex x0 y0 r k))) := by
  simp [rowHits, List.range_succ, List.any_append]

theorem rowHits_iff (x0 y0 r : Nat) (b : Byte) (k p : Nat) :
    rowHits x0 y0 r b k p = true ↔ ∃ c < k, spriteBit b c = true ∧ p = pixelIndex x0 y0 r c := by
  simp [rowHits]

/-- A later column's pixel is not among the earlier ones. -/
theorem rowHits_fresh (x0 y0 r : Nat) (b : Byte) {k : Nat} (hk : k < 8) :
    rowHits x0 y0 r b k (pixelIndex x0 y0 r k) = false := by
  rw [Bool.eq_false_iff, Ne, rowHits_iff]
  rintro ⟨c, hc, -, h⟩
  exact absurd (pixelIndex_inj (by omega) (by omega) h) (by omega)

/-- What the first `k` pixels of a row do to memory and to the collision (44_draw.md R171, R174). -/
theorem drawPixels_spec {x0 y0 r : Nat} {b : Byte} {mc : Memory × Bool}
    (h : Memory.wf mc.1 = true) {k : Nat} (hk : k ≤ 8) :
    Memory.wf (drawPixels x0 y0 r b k mc).1 = true ∧
    (∀ p, pixel (drawPixels x0 y0 r b k mc).1 p = (pixel mc.1 p ^^ rowHits x0 y0 r b k p)) ∧
    (∀ a, (a < parameters.fbBase ∨ parameters.fbBase + 256 ≤ a) →
      Memory.read (drawPixels x0 y0 r b k mc).1 a = Memory.read mc.1 a) ∧
    ((drawPixels x0 y0 r b k mc).2 = true ↔
      mc.2 = true ∨ ∃ c < k, spriteBit b c = true ∧ pixel mc.1 (pixelIndex x0 y0 r c) = true) := by
  induction k with
  | zero => simp [drawPixels, h, rowHits]
  | succ k ih =>
    obtain ⟨hwf, hpix, hout, hcol⟩ := ih (by omega)
    have hp := pixelIndex_lt x0 y0 r k
    refine ⟨xorPixel_wf hwf hp _, fun p => ?_, fun a ha => ?_, ?_⟩
    · rw [drawPixels, xorPixel_pixel hwf, hpix, rowHits_succ, Bool.xor_assoc]
      congr 1
      by_cases hpk : p = pixelIndex x0 y0 r k
      · subst hpk; simp [rowHits_fresh x0 y0 r b (show k < 8 by omega)]
      · simp [hpk]
    · rw [drawPixels, xorPixel_read hwf _ (by have := pixelAddr_bound hp; omega), hout a ha]
    · rw [drawPixels]
      simp only [Bool.or_eq_true, Bool.and_eq_true, hcol, hpix,
        rowHits_fresh x0 y0 r b (show k < 8 by omega), Bool.xor_false]
      constructor
      · rintro ((h1 | ⟨c, hc, h2⟩) | h3)
        · exact Or.inl h1
        · exact Or.inr ⟨c, by omega, h2⟩
        · exact Or.inr ⟨k, by omega, h3⟩
      · rintro (h1 | ⟨c, hc, h2⟩)
        · exact Or.inl (Or.inl h1)
        · rcases Nat.lt_or_ge c k with hlt | hge
          · exact Or.inl (Or.inr ⟨c, hlt, h2⟩)
          · have : c = k := by omega
            subst this; exact Or.inr h2

/-- What the first `k` rows of a sprite do: row by row, each byte read from the memory the rows before
it left (R175). -/
theorem drawRows_spec (addr x0 y0 : Nat) {m : Memory} (h : Memory.wf m = true) (k : Nat) :
    Memory.wf (drawRows addr x0 y0 m k).1 = true ∧
    (∀ a, (a < parameters.fbBase ∨ parameters.fbBase + 256 ≤ a) →
      Memory.read (drawRows addr x0 y0 m k).1 a = Memory.read m a) ∧
    (∀ r < k, ∀ p, pixel (drawRows addr x0 y0 m (r + 1)).1 p =
      (pixel (drawRows addr x0 y0 m r).1 p ^^
        rowHits x0 y0 r (Memory.read (drawRows addr x0 y0 m r).1 (addr + r)) 8 p)) ∧
    ((drawRows addr x0 y0 m k).2 = true ↔ ∃ r < k, ∃ c < 8,
      spriteBit (Memory.read (drawRows addr x0 y0 m r).1 (addr + r)) c = true ∧
      pixel (drawRows addr x0 y0 m r).1 (pixelIndex x0 y0 r c) = true) := by
  induction k with
  | zero => simp [drawRows, h]
  | succ k ih =>
    obtain ⟨hwf, hout, hpix, hcol⟩ := ih
    have hrow := drawPixels_spec (x0 := x0) (y0 := y0) (r := k)
      (b := Memory.read (drawRows addr x0 y0 m k).1 (addr + k)) hwf (Nat.le_refl 8)
    refine ⟨hrow.1, fun a ha => by rw [drawRows]; rw [hrow.2.2.1 a ha, hout a ha], ?_, ?_⟩
    · intro r hr p
      rcases Nat.lt_or_ge r k with hlt | hge
      · exact hpix r hlt p
      · have : r = k := by omega
        subst this; exact hrow.2.1 p
    · rw [drawRows]
      rw [hrow.2.2.2, hcol]
      constructor
      · rintro (⟨r, hr, h1⟩ | ⟨c, hc, h2⟩)
        · exact ⟨r, by omega, h1⟩
        · exact ⟨k, by omega, c, hc, h2⟩
      · rintro ⟨r, hr, h1⟩
        rcases Nat.lt_or_ge r k with hlt | hge
        · exact Or.inl ⟨r, hlt, h1⟩
        · have : r = k := by omega
          subst this; exact Or.inr h1

/-- A byte of the framebuffer is its eight pixels. -/
theorem pixel_ext {m n : Memory} {a : Nat} (ha : parameters.fbBase ≤ a)
    (h : ∀ p, pixelAddr p = a → pixel m p = pixel n p) : Memory.read m a = Memory.read n a := by
  apply BitVec.eq_of_getLsbD_eq
  intro i hi
  have hq : pixelAddr (8 * (a - parameters.fbBase) + (7 - i)) = a := by unfold pixelAddr; omega
  have hb : pixelBit (8 * (a - parameters.fbBase) + (7 - i)) = i := by unfold pixelBit; omega
  have := h _ hq
  unfold pixel at this
  rwa [hq, hb] at this

end Sys2Proof.Machine
end

