-- ==== Sys2Proof/Laws/PerInstr.lean ====
section
/-! SUPPORT. Statements made per instruction. EncodingMatchesRow: the word of an instruction, masked
with its row's mask, is the row's match value (30_encoding.md R75). -/

namespace Sys2Proof.Laws.EncodingMatchesRow

/-- The row of the opcode map an instruction belongs to. -/
def rowOf (i : Instr) : OpcodeRow := opcodeRows.getD (i.rowNumber - 1) ⟨0#16, 1#16⟩

/-- The encoding of `i` belongs to the row of `i`. -/
def Statement (i : Instr) : Prop := encode i &&& (rowOf i).mask = (rowOf i).bits

theorem and_nibble (b : BitVec 4) : b &&& 0xF#4 = b := BitVec.and_allOnes

theorem and_byte (b : BitVec 8) : b &&& 0xFF#8 = b := BitVec.and_allOnes

/-- Masking a word made of a class and `nnn` with F000 leaves the class. -/
theorem mask_nnn (cls : BitVec 4) (nnn : Addr12) : wordNNN cls nnn &&& 0xF000#16 = cls ++ 0#12 := by
  unfold wordNNN
  rw [show (0xF000#16 : BitVec 16) = (0xF#4 ++ 0#12 : BitVec 16) from rfl, BitVec.and_append]
  simp [and_nibble]

/-- Masking a word made of a class, `x` and a byte with F000 leaves the class. -/
theorem mask_x (cls : BitVec 4) (x : Reg) (kk : Byte) :
    wordXKK cls x kk &&& 0xF000#16 = cls ++ 0#4 ++ 0#8 := by
  unfold wordXKK
  rw [show (0xF000#16 : BitVec 16) = (0xF#4 ++ 0#4 ++ 0#8 : BitVec 16) from rfl,
    BitVec.and_append, BitVec.and_append]
  simp [and_nibble]

/-- Masking it with F0FF leaves the class and the byte. -/
theorem mask_xkk (cls : BitVec 4) (x : Reg) (kk : Byte) :
    wordXKK cls x kk &&& 0xF0FF#16 = cls ++ 0#4 ++ kk := by
  unfold wordXKK
  rw [show (0xF0FF#16 : BitVec 16) = (0xF#4 ++ 0#4 ++ 0xFF#8 : BitVec 16) from rfl,
    BitVec.and_append, BitVec.and_append]
  simp [and_nibble, and_byte]

/-- Masking a word made of a class, `x`, `y` and a nibble with F000 leaves the class. -/
theorem mask_xyn (cls : BitVec 4) (x y : Reg) (n : BitVec 4) :
    wordXYN cls x y n &&& 0xF000#16 = cls ++ 0#4 ++ 0#4 ++ 0#4 := by
  unfold wordXYN
  rw [show (0xF000#16 : BitVec 16) = (0xF#4 ++ 0#4 ++ 0#4 ++ 0#4 : BitVec 16) from rfl,
    BitVec.and_append, BitVec.and_append, BitVec.and_append]
  simp [and_nibble]

/-- Masking it with F00F leaves the class and the low nibble. -/
theorem mask_xys (cls : BitVec 4) (x y : Reg) (n : BitVec 4) :
    wordXYN cls x y n &&& 0xF00F#16 = cls ++ 0#4 ++ 0#4 ++ n := by
  unfold wordXYN
  rw [show (0xF00F#16 : BitVec 16) = (0xF#4 ++ 0#4 ++ 0#4 ++ 0xF#4 : BitVec 16) from rfl,
    BitVec.and_append, BitVec.and_append, BitVec.and_append]
  simp [and_nibble]

theorem cls : Statement .cls := rfl
theorem ret : Statement .ret := rfl
theorem sys (nnn : Addr12) : Statement (.sys nnn) := mask_nnn _ nnn
theorem jp (nnn : Addr12) : Statement (.jp nnn) := mask_nnn _ nnn
theorem call (nnn : Addr12) : Statement (.call nnn) := mask_nnn _ nnn
theorem seImm (x : Reg) (kk : Byte) : Statement (.seImm x kk) := mask_x _ x kk
theorem sneImm (x : Reg) (kk : Byte) : Statement (.sneImm x kk) := mask_x _ x kk
theorem seReg (x y : Reg) : Statement (.seReg x y) := mask_xys _ x y _
theorem ldImm (x : Reg) (kk : Byte) : Statement (.ldImm x kk) := mask_x _ x kk
theorem addImm (x : Reg) (kk : Byte) : Statement (.addImm x kk) := mask_x _ x kk
theorem ldReg (x y : Reg) : Statement (.ldReg x y) := mask_xys _ x y _
theorem orReg (x y : Reg) : Statement (.orReg x y) := mask_xys _ x y _
theorem andReg (x y : Reg) : Statement (.andReg x y) := mask_xys _ x y _
theorem xorReg (x y : Reg) : Statement (.xorReg x y) := mask_xys _ x y _
theorem addReg (x y : Reg) : Statement (.addReg x y) := mask_xys _ x y _
theorem subReg (x y : Reg) : Statement (.subReg x y) := mask_xys _ x y _
theorem shr (x y : Reg) : Statement (.shr x y) := mask_xys _ x y _
theorem subnReg (x y : Reg) : Statement (.subnReg x y) := mask_xys _ x y _
theorem shl (x y : Reg) : Statement (.shl x y) := mask_xys _ x y _
theorem sneReg (x y : Reg) : Statement (.sneReg x y) := mask_xys _ x y _
theorem ldI (nnn : Addr12) : Statement (.ldI nnn) := mask_nnn _ nnn
theorem jpV0 (nnn : Addr12) : Statement (.jpV0 nnn) := mask_nnn _ nnn
theorem rnd (x : Reg) (kk : Byte) : Statement (.rnd x kk) := mask_x _ x kk
theorem drw (x y n : Reg) : Statement (.drw x y n) := mask_xyn _ x y _
theorem skp (x : Reg) : Statement (.skp x) := mask_xkk _ x _
theorem sknp (x : Reg) : Statement (.sknp x) := mask_xkk _ x _
theorem ldVxDt (x : Reg) : Statement (.ldVxDt x) := mask_xkk _ x _
theorem ldVxK (x : Reg) : Statement (.ldVxK x) := mask_xkk _ x _
theorem ldDtVx (x : Reg) : Statement (.ldDtVx x) := mask_xkk _ x _
theorem ldStVx (x : Reg) : Statement (.ldStVx x) := mask_xkk _ x _
theorem addI (x : Reg) : Statement (.addI x) := mask_xkk _ x _
theorem ldF (x : Reg) : Statement (.ldF x) := mask_xkk _ x _
theorem ldB (x : Reg) : Statement (.ldB x) := mask_xkk _ x _
theorem ldMemVx (x : Reg) : Statement (.ldMemVx x) := mask_xkk _ x _
theorem ldVxMem (x : Reg) : Statement (.ldVxMem x) := mask_xkk _ x _

end Sys2Proof.Laws.EncodingMatchesRow
end

