-- ==== Sys2Proof/Laws/Step.lean ====
section
/-! SUPPORT. What an instruction and a step can do, said once: an instruction whose fault condition
holds takes exactly that fault, every other answers a next state with the latch as it was, and a step
is one of four cases. -/

namespace Sys2Proof.Machine

/-- An instruction whose fault condition holds takes that fault and nothing else. -/
theorem exec_fault {i : Instr} {s : State} {f : Fault} (h : faultCondition i s = some f) :
    exec i s = .next (s.takeFault f) := by
  cases i <;> simp only [faultCondition, reduceCtorEq] at h <;>
    exact congrArg Host.Outcome.next (guarded_some h _ s)

/-- Every instruction answers a next state. -/
theorem exec_next (i : Instr) (s : State) : ∃ t, exec i s = .next t := by
  cases i <;> first
    | exact ⟨_, rfl⟩
    | (simp only [exec, execLdVxK]; split <;> exact ⟨_, rfl⟩)

/-- The four cases of a step: halted, fetch out of range, invalid word, or a decoded instruction. -/
theorem stepOn_cases (r : Byte) (s : State) :
    (∃ f, s.fault = some f ∧ stepOn r s = .next s.clearOut) ∨
    (s.fault = none ∧ 0xFFE < s.pc.toNat ∧
      stepOn r s = .next (s.clearOut.takeFault .addressOutOfRange)) ∨
    (∃ w e, s.fault = none ∧ s.fetch = some w ∧ decode w = .invalid e ∧
      stepOn r s = .next (s.clearOut.takeFault .invalidOpcode)) ∨
    (∃ w i, s.fault = none ∧ s.fetch = some w ∧ decode w = .instr i ∧
      stepOn r s = runInstr r i s.clearOut) := by
  cases hf : s.fault with
  | some f => exact Or.inl ⟨f, rfl, by simp [stepOn, hf]⟩
  | none =>
    by_cases hpc : s.pc.toNat ≤ 0xFFE
    · have hw := State.fetch_some hpc
      cases hd : decode (Memory.read s.mem s.pc.toNat ++ Memory.read s.mem (s.pc.toNat + 1)) with
      | invalid e => exact Or.inr (Or.inr (Or.inl ⟨_, e, rfl, hw, hd, by
          simp [stepOn, hf, hw, runWord, hd]⟩))
      | instr i => exact Or.inr (Or.inr (Or.inr ⟨_, i, rfl, hw, hd, by
          simp [stepOn, hf, hw, runWord, hd]⟩))
    · exact Or.inr (Or.inl ⟨rfl, by omega, by
        simp [stepOn, hf, State.fetch_none (show 0xFFE < s.pc.toNat by omega)]⟩)

/-- A decoded instruction in a step: its fault on the state as it stands, or its execution after the
timer phase. -/
theorem runInstr_cases (r : Byte) (i : Instr) (s : State) :
    (∃ f, faultCondition i s = some f ∧ runInstr r i s = .next (s.takeFault f)) ∨
    (faultCondition i s = none ∧ runInstr r i s = exec i (s.sample r).tick) := by
  cases h : faultCondition i s with
  | some f => exact Or.inl ⟨f, rfl, by simp [runInstr, h, exec_fault h]⟩
  | none => exact Or.inr ⟨rfl, by simp only [runInstr, h]; rfl⟩

/-- The fault condition reads neither the timers, nor the result, nor the random input. -/
theorem faultCondition_tick (r : Byte) (i : Instr) (s : State) :
    faultCondition i (s.sample r).tick = faultCondition i s := by cases i <;> rfl

theorem faultCondition_clearOut (i : Instr) (s : State) :
    faultCondition i s.clearOut = faultCondition i s := by cases i <;> rfl

/-- Every step answers a next state. -/
theorem stepOn_next (r : Byte) (s : State) : ∃ t, stepOn r s = .next t := by
  rcases stepOn_cases r s with ⟨_, _, h⟩ | ⟨_, _, h⟩ | ⟨_, _, _, _, _, h⟩ | ⟨w, i, _, _, _, h⟩
  · exact ⟨_, h⟩
  · exact ⟨_, h⟩
  · exact ⟨_, h⟩
  · rcases runInstr_cases r i s.clearOut with ⟨f, _, h2⟩ | ⟨_, h2⟩
    · exact ⟨_, h.trans h2⟩
    · obtain ⟨t, ht⟩ := exec_next i (s.clearOut.sample r).tick
      exact ⟨t, h.trans (h2.trans ht)⟩

end Sys2Proof.Machine
end

