-- ==== Sys2Proof/Tests/Slice0.lean ====
section
/-! SUPPORT. The model's own tests: single steps and decodings whose expected results are the vectors of
95_test_vectors.md (T1 to T8 and the family tables) or the patterns of 30_encoding.md R75, the checks of
WellFormed, and a witness for the hypotheses of every obligation. -/

namespace Sys2Proof.Tests

open Sys2Proof.Machine Sys2Proof.Safety

/-! ### Small states -/

/-- The next state of an answer. -/
def got : Answer → State
  | .next t => t
  | .fault _ => State.reset
  | .refused _ => State.reset

/-- One step on `s` with the word `w` placed at its pc, the random byte 0. -/
def run (w : Nat) (s : State) : State := got (stepOn 0#8 (s.withFetchWord 16 w))

/-- One step on `s` as it stands. -/
def go (s : State) : State := got (stepOn 0#8 s)

/-- The reset state with V1 = a and V2 = b. -/
def two (a b : Byte) : State := (State.reset.writeV 1 a).writeV 2 b

/-- `s` with a byte of memory written. -/
def poke (a : Nat) (b : Byte) (s : State) : State := s.setMem (Memory.write s.mem a b)

/-- `s` with SP live entries. -/
def deep (sp : StackPointer) (s : State) : State := s.setStack s.stack sp

/-- The byte of memory at `a`. -/
def peek (s : State) (a : Nat) : Byte := Memory.read s.mem a

/-! ### WellFormed -/

/-- The one check, `sysIsLegacy`, refuses the words of CLS and RET and accepts their neighbours (R78). -/
theorem test_wellFormed_sys :
    (Instr.sys 0x0E0#12).wellFormed = false ∧ (Instr.sys 0x0EE#12).wellFormed = false ∧
    (Instr.sys 0x0E1#12).wellFormed = true ∧ (Instr.sys 0x000#12).wellFormed = true ∧
    Instr.cls.wellFormed = true := by decide

/-- The parameters meet the constraints of R4. -/
theorem test_parameters_wf : parameters.wf = true := by decide

/-- A font of 79 bytes and a framebuffer over the font are refused (R4). -/
theorem test_parameters_bad :
    ({ parameters with fontData := [] }).wf = false ∧ ({ parameters with fbBase := 0x40 }).wf = false ∧
    ({ parameters with progBase := 0x201 }).wf = false ∧ ({ parameters with fbBase := 0xF01 }).wf = false ∧
    ({ parameters with fontBase := 0x1B1, fbBase := 0x300 }).wf = false := by decide

/-! ### Decoding: one word for each constructor, written out from its pattern in R75 -/

theorem test_decode_flow :
    decode 0x00E0#16 = .instr .cls ∧ decode 0x00EE#16 = .instr .ret ∧
    decode 0x0ABC#16 = .instr (.sys 0xABC#12) ∧ decode 0x1ABC#16 = .instr (.jp 0xABC#12) ∧
    decode 0x2ABC#16 = .instr (.call 0xABC#12) ∧ decode 0x3A42#16 = .instr (.seImm 10 0x42#8) ∧
    decode 0x4A42#16 = .instr (.sneImm 10 0x42#8) ∧ decode 0x5120#16 = .instr (.seReg 1 2) ∧
    decode 0x9120#16 = .instr (.sneReg 1 2) ∧ decode 0xB3FE#16 = .instr (.jpV0 0x3FE#12) := by decide

theorem test_decode_alu :
    decode 0x6F12#16 = .instr (.ldImm 15 0x12#8) ∧ decode 0x7AFF#16 = .instr (.addImm 10 0xFF#8) ∧
    decode 0x8120#16 = .instr (.ldReg 1 2) ∧ decode 0x8121#16 = .instr (.orReg 1 2) ∧
    decode 0x8122#16 = .instr (.andReg 1 2) ∧ decode 0x8123#16 = .instr (.xorReg 1 2) ∧
    decode 0x8124#16 = .instr (.addReg 1 2) ∧ decode 0x8125#16 = .instr (.subReg 1 2) ∧
    decode 0x8126#16 = .instr (.shr 1 2) ∧ decode 0x8127#16 = .instr (.subnReg 1 2) ∧
    decode 0x812E#16 = .instr (.shl 1 2) ∧ decode 0xC10F#16 = .instr (.rnd 1 0x0F#8) := by decide

theorem test_decode_rest :
    decode 0xA22A#16 = .instr (.ldI 0x22A#12) ∧ decode 0xD125#16 = .instr (.drw 1 2 5) ∧
    decode 0xE19E#16 = .instr (.skp 1) ∧ decode 0xE1A1#16 = .instr (.sknp 1) ∧
    decode 0xF107#16 = .instr (.ldVxDt 1) ∧ decode 0xF30A#16 = .instr (.ldVxK 3) ∧
    decode 0xF115#16 = .instr (.ldDtVx 1) ∧ decode 0xF118#16 = .instr (.ldStVx 1) ∧
    decode 0xF11E#16 = .instr (.addI 1) ∧ decode 0xF129#16 = .instr (.ldF 1) ∧
    decode 0xF133#16 = .instr (.ldB 1) ∧ decode 0xF355#16 = .instr (.ldMemVx 3) ∧
    decode 0xF265#16 = .instr (.ldVxMem 2) := by decide

/-- Words the vectors call invalid (R77). -/
theorem test_decode_invalid :
    decode 0x5121#16 = .invalid .class5Selector ∧ decode 0x8128#16 = .invalid .class8Selector ∧
    decode 0x812F#16 = .invalid .class8Selector ∧ decode 0x912F#16 = .invalid .class9Selector ∧
    decode 0xE19F#16 = .invalid .classESelector ∧ decode 0xE1A0#16 = .invalid .classESelector ∧
    decode 0xF100#16 = .invalid .classFSelector ∧ decode 0xF185#16 = .invalid .classFSelector ∧
    decodeBytes [0x60#8] = .invalid .truncated := by decide

/-- The host's word interface: bit 0 is the least significant bit of the word, stored high half first. -/
theorem test_table_word :
    decodeTableWord 16 0xA22A = some (.ldI 0x22A#12) ∧ tableBytes 16 0xA22A = [0xA2#8, 0x2A#8] ∧
    decodeTableWord 16 0x8128 = none := by decide

/-- The encoder on a few instructions (R75). -/
theorem test_encode :
    encode (.ldI 0x22A#12) = 0xA22A#16 ∧ encode (.shl 1 2) = 0x812E#16 ∧ encode (.drw 1 2 5) = 0xD125#16 ∧
    encode (.ldVxMem 2) = 0xF265#16 ∧ wordBytes 0xA22A#16 = [0xA2#8, 0x2A#8] := by decide

/-! ### Control flow (95_test_vectors.md 2.1) -/

/-- `0123`: only pc moves. -/
theorem test_sys : (run 0x0123 State.reset).pc = 0x202#16 ∧
    run 0x00E1 State.reset = { State.reset.withFetchWord 16 0x00E1 with pc := 0x202#16, draws := 1 } := by decide

/-- `00EE` with one live entry, and with none. -/
theorem test_ret : (run 0x00EE (State.reset.push 0x456#16)).pc = 0x456#16 ∧
    (run 0x00EE (State.reset.push 0x456#16)).sp = 0 ∧
    (run 0x00EE State.reset).fault = some .stackUnderflow ∧ (run 0x00EE State.reset).pc = 0x200#16 := by decide

/-- `00EE` with a full stack pops the last entry. -/
theorem test_ret_full : (run 0x00EE ((deep 15 State.reset).push 0xABC#16)).pc = 0xABC#16 ∧
    (run 0x00EE ((deep 15 State.reset).push 0xABC#16)).sp = 15 := by decide

theorem test_jp : (run 0x1ABC State.reset).pc = 0xABC#16 ∧ (run 0x1FFF State.reset).pc = 0xFFF#16 ∧
    (go (run 0x1FFF State.reset)).fault = some .addressOutOfRange := by decide

/-- `2ABC` with SP = 0 and with SP = 15. -/
theorem test_call : (run 0x2ABC State.reset).stack[0] = 0x202#16 ∧ (run 0x2ABC State.reset).sp = 1 ∧
    (run 0x2ABC State.reset).pc = 0xABC#16 ∧ (run 0x2ABC (deep 15 State.reset)).stack[15] = 0x202#16 ∧
    (run 0x2ABC (deep 15 State.reset)).sp = 16 := by decide

/-- `2ABC` with SP = 16 overflows and changes nothing else. -/
theorem test_call_overflow : run 0x2ABC (deep 16 State.reset) =
    faulted .stackOverflow ((deep 16 State.reset).withFetchWord 16 0x2ABC) := by decide

theorem test_seImm : (run 0x3A42 (State.reset.writeV 10 0x42#8)).pc = 0x204#16 ∧
    (run 0x3A42 (State.reset.writeV 10 0x43#8)).pc = 0x202#16 := by decide

/-- A skip at the end of memory: pc = 1002 (16-bit sum). -/
theorem test_seImm_end : (run 0x3000 (State.reset.setPc 0xFFE#16)).pc = 0x1002#16 := by decide

theorem test_sneImm : (run 0x4A42 (State.reset.writeV 10 0x42#8)).pc = 0x202#16 ∧
    (run 0x4A42 (State.reset.writeV 10 0x43#8)).pc = 0x204#16 := by decide

theorem test_seReg : (run 0x5120 (two 7#8 7#8)).pc = 0x204#16 ∧ (run 0x5120 (two 7#8 8#8)).pc = 0x202#16 ∧
    (run 0x5110 (two 9#8 0#8)).pc = 0x204#16 := by decide

theorem test_sneReg : (run 0x9120 (two 7#8 7#8)).pc = 0x202#16 ∧ (run 0x9120 (two 7#8 8#8)).pc = 0x204#16 ∧
    (run 0x9110 (two 9#8 0#8)).pc = 0x202#16 := by decide

/-- `BFFF` with V0 = FF: not masked. -/
theorem test_jpV0 : (run 0xBFFF (State.reset.writeV 0 0xFF#8)).pc = 0x10FE#16 ∧
    (run 0xB300 (State.reset.writeV 0 0xFF#8)).pc = 0x3FF#16 := by decide

/-! ### Arithmetic and logic (95_test_vectors.md 2.2, T1 to T3) -/

theorem test_ldImm : (run 0x6F12 State.reset).readV 15 = 0x12#8 ∧ (run 0x6005 State.reset).readV 0 = 5#8 ∧
    (run 0x6005 State.reset).pc = 0x202#16 := by decide

theorem test_addImm : (run 0x7AFF (State.reset.writeV 10 2#8)).readV 10 = 1#8 ∧
    (run 0x7AFF (State.reset.writeV 10 2#8)).readV 15 = 0#8 ∧
    (run 0x7F01 (State.reset.writeV 15 0xFF#8)).readV 15 = 0#8 := by decide

theorem test_ldReg : (run 0x8120 (two 1#8 2#8)).readV 1 = 2#8 ∧ (run 0x8120 (two 1#8 2#8)).readV 2 = 2#8 := by decide

/-- The three logic operations; VF keeps its 01. -/
theorem test_orReg : (run 0x8121 ((two 0x0F#8 0xF0#8).writeV 15 1#8)).readV 1 = 0xFF#8 ∧
    (run 0x8121 ((two 0x0F#8 0xF0#8).writeV 15 1#8)).readV 15 = 1#8 := by decide
theorem test_andReg : (run 0x8122 ((two 0x3C#8 0x0F#8).writeV 15 1#8)).readV 1 = 0x0C#8 ∧
    (run 0x8122 ((two 0x3C#8 0x0F#8).writeV 15 1#8)).readV 15 = 1#8 := by decide
theorem test_xorReg : (run 0x8123 ((two 0xFF#8 0x0F#8).writeV 15 1#8)).readV 1 = 0xF0#8 ∧
    (run 0x8123 ((two 0xFF#8 0x0F#8).writeV 15 1#8)).readV 15 = 1#8 ∧
    (run 0x8113 (two 0xAA#8 0#8)).readV 1 = 0#8 := by decide

/-- T2, and a sum of exactly 255. -/
theorem test_addReg : (run 0x8124 (two 0xFF#8 1#8)).readV 1 = 0#8 ∧ (run 0x8124 (two 0xFF#8 1#8)).readV 15 = 1#8 ∧
    (run 0x8124 ((two 0x80#8 0x7F#8).writeV 15 1#8)).readV 1 = 0xFF#8 ∧
    (run 0x8124 ((two 0x80#8 0x7F#8).writeV 15 1#8)).readV 15 = 0#8 := by decide

/-- `8F14` and `81F4`: the flag wins; VF is read before it is written. -/
theorem test_addReg_VF : (run 0x8F14 ((two 1#8 0#8).writeV 15 0xFF#8)).readV 15 = 1#8 ∧
    (run 0x81F4 ((two 0xFF#8 0#8).writeV 15 1#8)).readV 1 = 0#8 ∧
    (run 0x81F4 ((two 0xFF#8 0#8).writeV 15 1#8)).readV 15 = 1#8 := by decide

/-- T3, and equal operands. -/
theorem test_subReg : (run 0x8125 ((two 1#8 2#8).writeV 15 1#8)).readV 1 = 0xFF#8 ∧
    (run 0x8125 ((two 1#8 2#8).writeV 15 1#8)).readV 15 = 0#8 ∧
    (run 0x8125 (two 5#8 5#8)).readV 15 = 1#8 ∧ (run 0x8125 (two 0x10#8 1#8)).readV 1 = 0x0F#8 := by decide

theorem test_subReg_VF : (run 0x8F15 ((two 5#8 0#8).writeV 15 3#8)).readV 15 = 0#8 ∧
    (run 0x81F5 ((two 5#8 0#8).writeV 15 3#8)).readV 1 = 2#8 ∧
    (run 0x81F5 ((two 5#8 0#8).writeV 15 3#8)).readV 15 = 1#8 := by decide

/-- `8126`: Vy is not used. -/
theorem test_shr : (run 0x8126 (two 5#8 0xFF#8)).readV 1 = 2#8 ∧ (run 0x8126 (two 5#8 0xFF#8)).readV 15 = 1#8 ∧
    (run 0x8126 (two 5#8 0xFF#8)).readV 2 = 0xFF#8 := by decide
theorem test_shr_VF : (run 0x8F06 (State.reset.writeV 15 3#8)).readV 15 = 1#8 ∧
    (run 0x8F06 (State.reset.writeV 15 2#8)).readV 15 = 0#8 := by decide

theorem test_subnReg : (run 0x8127 (two 1#8 2#8)).readV 1 = 1#8 ∧ (run 0x8127 (two 1#8 2#8)).readV 15 = 1#8 ∧
    (run 0x8127 ((two 2#8 1#8).writeV 15 1#8)).readV 1 = 0xFF#8 ∧
    (run 0x8127 ((two 2#8 1#8).writeV 15 1#8)).readV 15 = 0#8 ∧ (run 0x8127 (two 7#8 7#8)).readV 15 = 1#8 := by decide

theorem test_shl : (run 0x812E (two 0x81#8 0#8)).readV 1 = 2#8 ∧ (run 0x812E (two 0x81#8 0#8)).readV 15 = 1#8 ∧
    (run 0x812E ((two 0x40#8 0#8).writeV 15 1#8)).readV 1 = 0x80#8 ∧
    (run 0x812E ((two 0x40#8 0#8).writeV 15 1#8)).readV 15 = 0#8 := by decide
theorem test_shl_VF : (run 0x8F0E (State.reset.writeV 15 0x80#8)).readV 15 = 1#8 ∧
    (run 0x8F0E (State.reset.writeV 15 0x41#8)).readV 15 = 0#8 := by decide

/-- `C10F` with the random byte A5; `CFF0` with FF. -/
theorem test_rnd : (got (stepOn 0xA5#8 (State.reset.withFetchWord 16 0xC10F))).readV 1 = 0x05#8 ∧
    (got (stepOn 0xFF#8 (State.reset.withFetchWord 16 0xCFF0))).readV 15 = 0xF0#8 := by decide

/-! ### Index register and memory (95_test_vectors.md 2.3) -/

theorem test_ldI : (run 0xAFFF State.reset).i = 0xFFF#16 ∧ (run 0xA000 (State.reset.setI 0x1234#16)).i = 0#16 := by decide

/-- `F11E`: not masked to 12 bits, wraps at 16, VF untouched. -/
theorem test_addI : (run 0xF11E ((two 0xFF#8 0#8).setI 0xFFF#16)).i = 0x10FE#16 ∧
    (run 0xF11E ((two 0xFF#8 0#8).setI 0xFFF#16)).readV 15 = 0#8 ∧
    (run 0xF11E ((two 1#8 0#8).setI 0xFFFF#16)).i = 0#16 := by decide

theorem test_ldF : (run 0xF129 (two 0x0A#8 0#8)).i = 0x32#16 ∧ (run 0xF129 (two 0x1A#8 0#8)).i = 0x82#16 ∧
    (run 0xF129 (two 0xFF#8 0#8)).i = 0x4FB#16 := by decide

/-- `F133` with V1 = FF at the last legal address. -/
theorem test_ldB : peek (run 0xF133 ((two 0xFF#8 0#8).setI 0xFFD#16)) 0xFFD = 2#8 ∧
    peek (run 0xF133 ((two 0xFF#8 0#8).setI 0xFFD#16)) 0xFFE = 5#8 ∧
    peek (run 0xF133 ((two 0xFF#8 0#8).setI 0xFFD#16)) 0xFFF = 5#8 := by decide

/-- `F133` at 0FFE faults with no partial write. -/
theorem test_ldB_fault : run 0xF133 ((two 0x7B#8 0#8).setI 0xFFE#16) =
    faulted .addressOutOfRange (((two 0x7B#8 0#8).setI 0xFFE#16).withFetchWord 16 0xF133) := by decide

/-- `F255` stores V0, V1 and V2 and no more; I stays. -/
theorem test_ldMemVx : peek (run 0xF255 (((two 2#8 3#8).writeV 3 4#8).setI 0x300#16)) 0x301 = 2#8 ∧
    peek (run 0xF255 (((two 2#8 3#8).writeV 3 4#8).setI 0x300#16)) 0x302 = 3#8 ∧
    peek (run 0xF255 (((two 2#8 3#8).writeV 3 4#8).setI 0x300#16)) 0x303 = 0#8 ∧
    (run 0xF255 (((two 2#8 3#8).writeV 3 4#8).setI 0x300#16)).i = 0x300#16 := by decide

/-- `F155` at 0FFF faults with not even the in-range byte written; `F055` there stores. -/
theorem test_ldMemVx_edge :
    run 0xF155 ((State.reset.writeV 0 0xAB#8).setI 0xFFF#16) =
      faulted .addressOutOfRange (((State.reset.writeV 0 0xAB#8).setI 0xFFF#16).withFetchWord 16 0xF155) ∧
    peek (run 0xF055 ((State.reset.writeV 0 0xAB#8).setI 0xFFF#16)) 0xFFF = 0xAB#8 := by decide

/-- `F265` with I = 0 reads the font's first bytes; V3 is not loaded. -/
theorem test_ldVxMem : (run 0xF265 (State.reset.writeV 3 0x77#8)).readV 0 = 0xF0#8 ∧
    (run 0xF265 (State.reset.writeV 3 0x77#8)).readV 1 = 0x90#8 ∧
    (run 0xF265 (State.reset.writeV 3 0x77#8)).readV 2 = 0x90#8 ∧
    (run 0xF265 (State.reset.writeV 3 0x77#8)).readV 3 = 0x77#8 := by decide

/-- `F065` at 1000 faults; at 0FFF it loads. -/
theorem test_ldVxMem_edge : (run 0xF065 (State.reset.setI 0x1000#16)).fault = some .addressOutOfRange ∧
    (run 0xF065 (poke 0xFFF 0x3C#8 (State.reset.setI 0xFFF#16))).readV 0 = 0x3C#8 := by decide

/-! ### Display (95_test_vectors.md 2.4) -/

/-- CLS clears the framebuffer's bytes and no others. -/
theorem test_cls : got (execCls (poke 0x1FF 0x55#8 (poke 0xFF 0x77#8 (State.reset.writeV 15 1#8)))) =
    (poke 0xFF 0x77#8 (State.reset.writeV 15 1#8)).requestRedraw.setPc 0x202#16 := by decide +kernel

/-- I = 0300 with the sprite bytes `b` and `c` there, V0 = x and V1 = y. -/
def sprite (b c x y : Byte) : State :=
  poke 0x301 c (poke 0x300 b (((State.reset.writeV 0 x).writeV 1 y).setI 0x300#16))

/-- `D011` past the last pixel of the buffer (linear wrap), `D012` past the bottom, `D011` on a lit pixel
with and without overlap, `DFF1` anchored by the old VF. -/
theorem test_drw_pixels :
    peek (run 0xD011 (sprite 0xFF#8 0#8 0x3C#8 0x1F#8)) 0x1FF = 0x0F#8 ∧
    peek (run 0xD011 (sprite 0xFF#8 0#8 0x3C#8 0x1F#8)) 0x100 = 0xF0#8 ∧
    peek (run 0xD012 (sprite 0x80#8 0x01#8 0#8 0x1F#8)) 0x1F8 = 0x80#8 ∧
    peek (run 0xD012 (sprite 0x80#8 0x01#8 0#8 0x1F#8)) 0x100 = 0x01#8 ∧
    peek (run 0xD011 (poke 0x100 0x80#8 (sprite 0xC0#8 0#8 0#8 0#8))) 0x100 = 0x40#8 ∧
    (run 0xD011 (poke 0x100 0x80#8 (sprite 0xC0#8 0#8 0#8 0#8))).readV 15 = 1#8 ∧
    (run 0xD011 (poke 0x100 0x80#8 (sprite 0x40#8 0#8 0#8 0#8))).readV 15 = 0#8 ∧
    peek (run 0xDFF1 ((sprite 0x80#8 0#8 0#8 0#8).writeV 15 3#8)) 0x118 = 0x10#8 := by decide

/-- `D012` with the sprite inside the framebuffer (row 1 reads the byte row 0 changed), `D010` with I out
of range, `D01F` at the last legal I and past it. -/
theorem test_drw_rows :
    peek (run 0xD012 (poke 0x101 0x0F#8 (poke 0x100 0xFF#8 ((State.reset.writeV 0 8#8).setI 0x100#16)))) 0x101 = 0xF0#8 ∧
    peek (run 0xD012 (poke 0x101 0x0F#8 (poke 0x100 0xFF#8 ((State.reset.writeV 0 8#8).setI 0x100#16)))) 0x109 = 0xF0#8 ∧
    (run 0xD010 ((State.reset.setI 0xFFFF#16).writeV 15 1#8)).readV 15 = 0#8 ∧
    (run 0xD010 ((State.reset.setI 0xFFFF#16).writeV 15 1#8)).out.redraw = true ∧
    (run 0xD01F (State.reset.setI 0xFF1#16)).fault = none ∧
    (run 0xD01F (State.reset.setI 0xFF2#16)).fault = some .addressOutOfRange ∧
    (run 0xD01F (State.reset.setI 0xFF2#16)).out = Output.none := by decide

/-! ### Timers and keys (95_test_vectors.md 2.5, T8) -/

/-- `F107` with DT = 05 reads the lowered value. -/
theorem test_ldVxDt : (run 0xF107 (State.reset.setDt 5#8)).readV 1 = 4#8 ∧ (run 0xF107 (State.reset.setDt 5#8)).dt = 4#8 ∧
    (run 0xF107 (State.reset.writeV 1 9#8)).readV 1 = 0#8 := by decide
theorem test_ldDtVx : (run 0xF115 ((two 0x3C#8 0#8).setDt 7#8)).dt = 0x3C#8 ∧ (run 0xF115 (State.reset.setDt 7#8)).dt = 0#8 := by decide
theorem test_ldStVx : (run 0xF118 ((two 0x3C#8 0#8).setSt 7#8)).stOut = 0x3C#8 := by decide

/-- Both timers tick in an executed step and stop at 0. -/
theorem test_tick : (run 0x0000 ((State.reset.setDt 1#8).setSt 0xFF#8)).dt = 0#8 ∧
    (run 0x0000 ((State.reset.setDt 1#8).setSt 0xFF#8)).st = 0xFE#8 ∧ (run 0x0000 State.reset).dt = 0#8 := by decide

/-- `E19E` with V1 = 17 tests key 7 (the low four bits). -/
theorem test_skp : (run 0xE19E ((two 0x17#8 0#8).writeKey 7 true)).pc = 0x204#16 ∧
    (run 0xE19E (two 7#8 0#8)).pc = 0x202#16 := by decide
theorem test_sknp : (run 0xE1A1 ((two 0xF3#8 0#8).writeKey 3 true)).pc = 0x202#16 ∧
    (run 0xE1A1 (two 7#8 0#8)).pc = 0x204#16 := by decide

/-- `F30A` with no key: pc stays, the wait is reported, both timers tick. -/
theorem test_ldVxK_wait : (run 0xF30A (State.reset.setDt 5#8)).pc = 0x200#16 ∧
    (run 0xF30A (State.reset.setDt 5#8)).out.await = some 3 ∧ (run 0xF30A (State.reset.setDt 5#8)).dt = 4#8 := by decide

/-- `F30A` with the keys 2, 9 and F: the lowest; the latch is not cleared. -/
theorem test_ldVxK : (run 0xF30A (((State.reset.writeKey 15 true).writeKey 9 true).writeKey 2 true)).readV 3 = 2#8 ∧
    (run 0xF30A (State.reset.writeKey 15 true)).readV 3 = 15#8 ∧
    (run 0xF30A (State.reset.writeKey 7 true)).key[7] = true ∧
    (run 0xF30A (State.reset.writeKey 7 true)).pc = 0x202#16 := by decide

/-! ### Step cycle and events (95_test_vectors.md 2.6) -/

/-- pc = 0FFF faults, with the timers not ticked; pc = 0FFE still fetches. -/
theorem test_fetch_edge : (go ((State.reset.setPc 0xFFF#16).setDt 5#8)).fault = some .addressOutOfRange ∧
    (go ((State.reset.setPc 0xFFF#16).setDt 5#8)).dt = 5#8 ∧
    (run 0x6A01 (State.reset.setPc 0xFFE#16)).readV 10 = 1#8 ∧
    (run 0x6A01 (State.reset.setPc 0xFFE#16)).pc = 0x1000#16 := by decide

/-- A halted step changes nothing; a faulting step does not tick. -/
theorem test_halt : go (((State.reset.setDt 0x3B#8).setPc 0x206#16).setFault (some .invalidOpcode)) =
      ((State.reset.setDt 0x3B#8).setPc 0x206#16).setFault (some .invalidOpcode) ∧
    (run 0x8008 (State.reset.setDt 5#8)).faultPort = 1#3 ∧ (run 0x8008 (State.reset.setDt 5#8)).dt = 5#8 := by decide

/-- A key event while halted. -/
theorem test_key_event : (keyEvent 4 true (State.reset.setFault (some .stackUnderflow))).key[4] = true ∧
    (keyEvent 4 true (State.reset.setFault (some .stackUnderflow))).fault = some .stackUnderflow ∧
    (keyEvent 7 false (State.reset.writeKey 7 true)).key[7] = false := by decide

/-- T7's ROM after reset: the bytes lie in the order of the ROM, and every other field is the reset
value. -/
theorem test_reset : got (resetWith [0xA2#8, 0x2A#8, 0x60#8, 0x05#8]
      ((State.reset.writeKey 3 true).setFault (some .stackOverflow))) =
    { State.reset with
      mem := [(0x200, 0xA2#8), (0x201, 0x2A#8), (0x202, 0x60#8), (0x203, 0x05#8)] } := by decide

/-- A key event presented with a step is applied first (R91): `F30A` sees the key. -/
theorem test_key_with_step :
    (got (runEvents (keyThenStep 7 true 0#8) (State.reset.withFetchWord 16 0xF30A))).readV 3 = 7#8 := by decide

/-- The word is placed at pc; where none can be fetched there, at PROG_BASE, and the latch is cleared. -/
theorem test_withFetchWord :
    State.reset.withFetchWord 16 0xA22A = { State.reset with mem := [(0x200, 0xA2#8), (0x201, 0x2A#8)] } ∧
    (((State.reset.setPc 0xFFF#16).setFault (some .stackOverflow)).withFetchWord 16 0xA22A) =
      { State.reset with mem := [(0x200, 0xA2#8), (0x201, 0x2A#8)] } := by decide

/-- The view of a step in which a fault is an outcome. -/
theorem test_outcomeOf : outcomeOf (stepOn 0#8 (State.reset.withFetchWord 16 0x00EE)) = .fault .stackUnderflow ∧
    outcomeOf (.next State.reset) = .next State.reset := ⟨rfl, rfl⟩

/-- A write of what an unlisted address reads as removes the cell; the font reads without a cell. -/
theorem test_memory_canonical :
    Memory.write (Memory.write [] 0x300 1#8) 0x300 0#8 = [] ∧ Memory.write [] 0x000 0xF0#8 = [] ∧
    Memory.read [] 0x04F = 0x80#8 ∧ Memory.read [] 0x050 = 0#8 ∧
    Memory.wf [(0x300, 0#8)] = false ∧ Memory.wf [(0x301, 1#8), (0x300, 1#8)] = false ∧
    Memory.wf [(0x1000, 1#8)] = false ∧ Memory.wf [(0xFFF, 1#8)] = true := by decide

/-! ### Witnesses: states and operands that meet the hypotheses of each obligation with hypotheses, at
the boundaries of their ranges. Each names the obligation it is for. -/

/-- The reset state with the word `w` at pc. -/
def at200 (w : Nat) : State := State.reset.withFetchWord 16 w

/-- A machine halted by `f`. -/
def halted (f : Fault) : State := State.reset.setFault (some f)

theorem witness_DecodingAnEncodedInstructionGivesItBack :
    (Instr.sys 0x000#12).wellFormed = true ∧ (Instr.sys 0x0EF#12).wellFormed = true ∧
    (Instr.sys 0xFFF#12).wellFormed = true ∧ (Instr.shl 15 15).wellFormed = true := by decide

/-- A word that decodes, and two words of one row whose named fields agree. -/
theorem witness_FieldsComeFromTheFetchedBytes :
    decode 0xD125#16 = .instr (.drw 1 2 5) ∧
    (decode 0xF165#16 = .instr (.ldVxMem 1) ∧ (Instr.ldVxMem 1).rowNumber = (Instr.ldVxMem 1).rowNumber ∧
      OperandsAre (.ldVxMem 1) 0xF165#16) := by unfold OperandsAre; decide

theorem witness_EncodingADecodedInstructionGivesTheWordBack :
    decode 0x81F6#16 = .instr (.shr 1 15) ∧ decode 0xFFFF#16 ≠ .instr (.ldVxMem 15) ∧
    decode 0xFF65#16 = .instr (.ldVxMem 15) := by decide

/-- Both sides of the row equivalence, for the rows of CLS, SYS and LD Vx, [I], and row 3 on CLS's word. -/
theorem witness_OpcodeMapRowsAreExact :
    (0x00E0#16 &&& (opcodeRows.getD 0 ⟨0#16, 1#16⟩).mask = (opcodeRows.getD 0 ⟨0#16, 1#16⟩).bits) ∧
    (0x00E1#16 &&& (opcodeRows.getD 2 ⟨0#16, 1#16⟩).mask = (opcodeRows.getD 2 ⟨0#16, 1#16⟩).bits) ∧
    (0xFF65#16 &&& (opcodeRows.getD 34 ⟨0#16, 1#16⟩).mask = (opcodeRows.getD 34 ⟨0#16, 1#16⟩).bits) ∧
    (0x00E0#16 &&& (opcodeRows.getD 2 ⟨0#16, 1#16⟩).mask = (opcodeRows.getD 2 ⟨0#16, 1#16⟩).bits) ∧
    decode 0x00E0#16 = .instr .cls ∧ Instr.cls.rowNumber = 1 := by decide

theorem witness_InvalidWordsAreExactlyThoseOfTheTable :
    InvalidWord 0x5001#16 ∧ InvalidWord 0x8008#16 ∧ InvalidWord 0x912F#16 ∧ InvalidWord 0xE09F#16 ∧
    InvalidWord 0xFFFF#16 ∧ ¬ InvalidWord 0x8FFE#16 := by
  refine ⟨?_, ?_, ?_, ?_, ?_, ?_⟩ <;> simp only [InvalidWord] <;> decide

/-- A fetched instruction without a fault, at the first and the last pc, and one with a fault. -/
theorem witness_StepRunsTheDecodedInstruction :
    (Fetches (at200 0x00EE) .ret ∧ faultCondition .ret (at200 0x00EE) ≠ none) ∧
    (Fetches ((State.reset.setPc 0#16).withFetchWord 16 0x6005) (.ldImm 0 5#8) ∧
      faultCondition (.ldImm 0 5#8) ((State.reset.setPc 0#16).withFetchWord 16 0x6005) = none) ∧
    (Fetches ((State.reset.setPc 0xFFE#16).withFetchWord 16 0x6005) (.ldImm 0 5#8) ∧
      faultCondition (.ldImm 0 5#8) ((State.reset.setPc 0xFFE#16).withFetchWord 16 0x6005) = none) := by
  unfold Fetches Running; decide

theorem witness_HaltedStepChangesNothing :
    (¬ Running (halted .invalidOpcode) ∧ HaltedIsQuiet (halted .invalidOpcode)) ∧
    (¬ Running (halted .addressOutOfRange).requestRedraw ∧
      ¬ HaltedIsQuiet (halted .addressOutOfRange).requestRedraw) := by
  unfold HaltedIsQuiet Running; decide

theorem witness_FetchBeyondMemoryTakesAddressOutOfRange :
    (Running (State.reset.setPc 0xFFF#16) ∧ 0xFFE < (State.reset.setPc 0xFFF#16).pc.toNat) ∧
    (Running (State.reset.setPc 0xFFFF#16) ∧ 0xFFE < (State.reset.setPc 0xFFFF#16).pc.toNat) := by
  unfold Running; decide

/-- A running machine whose step ends at InvalidOpcode, and one whose does not. -/
theorem witness_InvalidWordTakesInvalidOpcode :
    (Running (at200 0x8128) ∧ (run 0x8128 State.reset).fault = some .invalidOpcode ∧
      InvalidWord (Memory.read (at200 0x8128).mem 0x200 ++ Memory.read (at200 0x8128).mem 0x201)) ∧
    (Running (at200 0x8127) ∧ (run 0x8127 State.reset).fault = none) := by
  simp only [InvalidWord, Running]; decide

/-- Every line of the fault table on both sides of its bound. -/
theorem witness_FaultTableDecidesEveryFault :
    Fetches (at200 0x2ABC) (.call 0xABC#12) ∧ Fetches (at200 0x00EE) .ret ∧
    Fetches (at200 0xD01F) (.drw 0 1 15) ∧ Fetches (at200 0xF133) (.ldB 1) ∧
    Fetches (at200 0xF355) (.ldMemVx 3) ∧ Fetches (at200 0xF365) (.ldVxMem 3) ∧
    tableFault (.call 0xABC#12) (deep 15 State.reset) = none ∧
    tableFault (.call 0xABC#12) (deep 16 State.reset) = some .stackOverflow ∧
    tableFault .ret (deep 1 State.reset) = none ∧ tableFault .ret State.reset = some .stackUnderflow ∧
    tableFault (.drw 0 1 15) (State.reset.setI 0xFF1#16) = none ∧
    tableFault (.drw 0 1 15) (State.reset.setI 0xFF2#16) = some .addressOutOfRange ∧
    tableFault (.drw 0 1 0) (State.reset.setI 0xFFFF#16) = none ∧
    tableFault (.ldB 1) (State.reset.setI 0xFFD#16) = none ∧
    tableFault (.ldB 1) (State.reset.setI 0xFFE#16) = some .addressOutOfRange ∧
    tableFault (.ldMemVx 3) (State.reset.setI 0xFFC#16) = none ∧
    tableFault (.ldMemVx 3) (State.reset.setI 0xFFD#16) = some .addressOutOfRange ∧
    tableFault (.ldVxMem 3) (State.reset.setI 0xFFC#16) = none ∧
    tableFault (.ldVxMem 3) (State.reset.setI 0xFFD#16) = some .addressOutOfRange := by
  unfold Fetches Running; decide

/-- A step that ends at each of the four causes. -/
theorem witness_FaultingStepsArePrecise :
    (Running (at200 0x5001) ∧ stepOn 0#8 (at200 0x5001) = .next (faulted .invalidOpcode (at200 0x5001))) ∧
    (Running (deep 16 (at200 0x2ABC)) ∧ stepOn 0#8 (deep 16 (at200 0x2ABC)) =
      .next (faulted .stackOverflow (deep 16 (at200 0x2ABC)))) ∧
    (Running (at200 0x00EE) ∧ stepOn 0#8 (at200 0x00EE) = .next (faulted .stackUnderflow (at200 0x00EE))) ∧
    (Running (State.reset.setPc 0xFFF#16) ∧ stepOn 0#8 (State.reset.setPc 0xFFF#16) =
      .next (faulted .addressOutOfRange (State.reset.setPc 0xFFF#16))) :=
  ⟨⟨rfl, rfl⟩, ⟨rfl, rfl⟩, ⟨rfl, rfl⟩, ⟨rfl, rfl⟩⟩

/-- A trace without a reset from a halted state, and ROMs of the least and the greatest length. -/
theorem witness_NothingButResetLeavesTheHalt :
    (¬ Running (halted .stackOverflow) ∧
      ∀ rom, Event.reset rom ∉ [Event.step 0xA5#8, Event.key 4 true, Event.step 0#8]) ∧
    ([] : List Byte).length ≤ maxRom ∧ (List.replicate 3584 0xFF#8).length ≤ maxRom := by
  refine ⟨⟨by unfold Running; decide, fun rom => by simp⟩, by decide, ?_⟩
  rw [List.length_replicate]; decide

theorem witness_TimersTickOncePerExecutedStep :
    (Fetches ((at200 0xF107).setDt 5#8) (.ldVxDt 1) ∧ tableFault (.ldVxDt 1) ((at200 0xF107).setDt 5#8) = none) ∧
    (Fetches (at200 0xF118) (.ldStVx 1) ∧ tableFault (.ldStVx 1) (at200 0xF118) = none) ∧
    (Fetches ((at200 0x00EE).setDt 5#8) .ret ∧ tableFault .ret ((at200 0x00EE).setDt 5#8) ≠ none) := by
  unfold Fetches Running; decide

/-- A redraw by CLS and by DRW, and an awaited key. -/
theorem witness_OnlyDrawAndClearRequestRedraw :
    (Fetches (at200 0x00E0) .cls ∧ tableFault .cls (at200 0x00E0) = none) ∧
    (Fetches (at200 0xD012) (.drw 0 1 2) ∧ tableFault (.drw 0 1 2) (at200 0xD012) = none) ∧
    (Fetches (at200 0xF30A) (.ldVxK 3) ∧ ∀ k : Reg, (at200 0xF30A).key[k] = false) := by
  unfold Fetches Running; decide

/-- A safe state, and states that are not: a word that faults, an invalid word, a fetch out of range. -/
theorem witness_StepIsSafeExactlyWhenNothingFaults :
    (Fetches (at200 0x6005) (.ldImm 0 5#8) ∧ tableFault (.ldImm 0 5#8) (at200 0x6005) = none) ∧
    outcomeOf (step (at200 0x00EE)) = .fault .stackUnderflow ∧
    outcomeOf (step (at200 0x8128)) = .fault .invalidOpcode ∧
    outcomeOf (step (State.reset.setPc 0xFFF#16)) = .fault .addressOutOfRange :=
  ⟨⟨⟨rfl, by decide, by decide⟩, rfl⟩, rfl, rfl, rfl⟩

theorem witness_KeyLatchIsWrittenOnlyByKeyEvents :
    stepOn 0#8 (halted .stackOverflow) = .next (halted .stackOverflow) ∧ (4 : Reg) ≠ 7 := ⟨rfl, by decide⟩

/-- Each clause: a flag, a draw on canonical memory, and an instruction that does not write VF. -/
theorem witness_VFIsWrittenOnlyAsTheTableSays :
    (tableFault (.addReg 15 1) State.reset = none ∧ flagOf (.addReg 15 1) State.reset = some false) ∧
    (tableFault (.drw 0 1 0) State.reset = none ∧ isDraw (.drw 0 1 0) = true ∧
      Memory.wf State.reset.mem = true) ∧
    (tableFault (.drw 0 1 15) (State.reset.setI 0xFF1#16) = none ∧
      Memory.wf (State.reset.setI 0xFF1#16).mem = true) ∧
    (tableFault (.ldImm 14 1#8) State.reset = none ∧ flagOf (.ldImm 14 1#8) State.reset = none ∧
      isDraw (.ldImm 14 1#8) = false ∧ namesVF (.ldImm 14 1#8) = false) := by decide

theorem witness_StateIsWrittenOnlyByTheListedInstructions :
    writesV .cls = false ∧ writesI .cls = false ∧ writesDt .cls = false ∧ writesSt .cls = false ∧
    writesStack .cls = false ∧ writesMem (.addI 1) = false ∧ tableFault .cls State.reset = none := by decide

theorem witness_PcIsWrittenOnceByEveryInstruction :
    tableFault .ret (deep 1 State.reset) = none ∧ tableFault .ret State.reset ≠ none := by decide

theorem step_answers (s : State) : ∃ t, step s = .next t := by
  unfold step freeStep; exact stepOn_next _ _

/-- A halted state, a state about to jump as high as pc can go, and a machine with a key awaited meet the
invariant, and a step of each answers. -/
theorem witness_InvariantKeptByEveryStep :
    (Inv (halted .stackOverflow) ∧ ∃ t, step (halted .stackOverflow) = .next t) ∧
    (Inv ((at200 0xBFFF).writeV 0 0xFF#8) ∧ ∃ t, step ((at200 0xBFFF).writeV 0 0xFF#8) = .next t) ∧
    (Inv ((at200 0xF30A).awaitKey 3) ∧ ∃ t, step ((at200 0xF30A).awaitKey 3) = .next t) :=
  ⟨⟨⟨by unfold Canonical; decide, ⟨by decide, by decide⟩, by unfold HaltedIsQuiet; decide⟩, step_answers _⟩,
    ⟨⟨by unfold Canonical; decide, ⟨by decide, by decide⟩, by unfold HaltedIsQuiet; decide⟩, step_answers _⟩,
    ⟨⟨by unfold Canonical; decide, ⟨by decide, by decide⟩, by unfold HaltedIsQuiet; decide⟩, step_answers _⟩⟩

/-- One event of each kind, from a halted state. -/
theorem witness_InvariantKeptByEveryEvent :
    Inv (halted .stackOverflow) ∧
    ∃ t, runEvents [.step 0#8, .key 7 true, .reset [0xF3#8, 0x0A#8], .step 0xFF#8] (halted .stackOverflow) = .next t :=
  ⟨witness_InvariantKeptByEveryStep.1.1, _, rfl⟩

/-- ROMs of length 0, 3584 and 3585, and an address of each range. -/
theorem witness_ResetLoadsTheRomOrRefuses :
    ([] : List Byte).length ≤ 3584 ∧ (List.replicate 3584 0xFF#8).length ≤ 3584 ∧
    3584 < (List.replicate 3585 0xFF#8).length ∧
    (79 < 80 ∧ 80 ≤ 80 ∧ 80 < 0x200 ∧ 0x1FF < 0x200 ∧ 0x200 ≤ 0x200 ∧ 0xFFF ≤ 0xFFF) := by
  simp only [List.length_replicate]; decide

/-- A CALL at depth 15 and, with other registers, the state RET runs on. -/
theorem witness_CallThenReturnRestoresPc :
    (deep 15 State.reset).sp.val < 16 ∧
    (run 0x2ABC (deep 15 State.reset)).stack = ((run 0x2ABC (deep 15 State.reset)).writeV 3 9#8).stack ∧
    (run 0x2ABC (deep 15 State.reset)).sp = ((run 0x2ABC (deep 15 State.reset)).writeV 3 9#8).sp := by decide

/-- A sprite that ends just below the framebuffer, one that starts just above it, and one at the top of
memory; and the state the second draw runs on. -/
theorem witness_DrawingTwiceRestoresTheFramebuffer :
    (Canonical (State.reset.setI 0xF1#16) ∧ (State.reset.setI 0xF1#16).i.toNat + (15 : Reg).val ≤ 0x1000 ∧
      (State.reset.setI 0xF1#16).i.toNat + (15 : Reg).val ≤ parameters.fbBase) ∧
    (Canonical (sprite 0xC0#8 1#8 63#8 31#8) ∧ (sprite 0xC0#8 1#8 63#8 31#8).i.toNat + (2 : Reg).val ≤ 0x1000 ∧
      parameters.fbBase + 256 ≤ (sprite 0xC0#8 1#8 63#8 31#8).i.toNat ∧
      (got (execDrw 0 1 2 (sprite 0xC0#8 1#8 63#8 31#8))).i = 0x300#16 ∧
      (got (execDrw 0 1 2 (sprite 0xC0#8 1#8 63#8 31#8))).readV 0 = 63#8 ∧
      (got (execDrw 0 1 2 (sprite 0xC0#8 1#8 63#8 31#8))).readV 1 = 31#8) ∧
    ((State.reset.setI 0xFFE#16).i.toNat + (2 : Reg).val ≤ 0x1000) := by
  unfold Canonical; decide

theorem witness_DrawRowIsATwoByteXor :
    Memory.wf [(0x1FF, 0xFF#8)] = true ∧ 63 < 64 ∧ 31 < 32 ∧ 14 < 15 ∧ 0 < 64 := by decide

theorem witness_SoundTimerIsReadByNoInstruction : ∀ x, Instr.ldDtVx 3 ≠ .ldStVx x := by decide

/-- A running machine at another instruction, at an invalid word and at a pc out of range, and a halted
one at the word of an RND: none fetches an RND. -/
theorem witness_OnlyRandomReadsTheRandomInput :
    (∀ x kk, ¬ Fetches (at200 0x8124) (.rnd x kk)) ∧ (∀ x kk, ¬ Fetches (at200 0x8128) (.rnd x kk)) ∧
    (∀ x kk, ¬ Fetches (State.reset.setPc 0xFFF#16) (.rnd x kk)) ∧
    (∀ x kk, ¬ Fetches ((at200 0xC1FF).setFault (some .stackOverflow)) (.rnd x kk)) := by
  refine ⟨fun x kk h => ?_, fun x kk h => ?_, fun x kk h => ?_, fun x kk h => ?_⟩
  · exact absurd (h.2.2.symm.trans (show _ = Decoded.instr (.addReg 1 2) from rfl)) (by simp)
  · exact absurd (h.2.2.symm.trans (show _ = Decoded.invalid .class8Selector from rfl)) (by simp)
  · exact absurd h.2.1 (by decide)
  · exact absurd h.1 (by unfold Running; decide)

theorem witness_SysIsANoOperation :
    (0x0E1#12 ≠ 0x0E0#12 ∧ 0x0E1#12 ≠ 0x0EE#12) ∧ (0xFFF#12 ≠ 0x0E0#12 ∧ 0xFFF#12 ≠ 0x0EE#12) ∧
    Fetches (at200 0x0123) (.sys 0x123#12) := by unfold Fetches Running; decide

/-- One and sixteen live entries, a popped entry of 0x1000, an empty stack at a fetched RET, SP = 15. -/
theorem witness_ReturnPopsOrUnderflows :
    (deep 1 State.reset).sp.val ≠ 0 ∧ (deep 16 State.reset).sp.val ≠ 0 ∧
    (Running (State.reset.push 0x1000#16) ∧ (State.reset.push 0x1000#16).sp.val ≠ 0 ∧
      0xFFE < (got (execRet (State.reset.push 0x1000#16))).pc.toNat) ∧
    (State.reset.sp.val = 0 ∧ Fetches (at200 0x00EE) .ret ∧ (at200 0x00EE).sp.val = 0) ∧
    (deep 15 State.reset).sp.val < 16 := by unfold Fetches Running; decide

theorem witness_JumpSetsPcToItsAddress : 0xFFF#12 = 0xFFF#12 ∧ Running State.reset := ⟨rfl, rfl⟩

theorem witness_CallPushesOrOverflows :
    State.reset.sp.val < 16 ∧ (deep 15 State.reset).sp.val < 16 ∧
    ((deep 16 (at200 0x2ABC)).sp.val = 16 ∧ Fetches (deep 16 (at200 0x2ABC)) (.call 0xABC#12)) ∧
    Fetches ((State.reset.setPc 0xFFE#16).withFetchWord 16 0x2ABC) (.call 0xABC#12) := by
  unfold Fetches Running; decide

theorem witness_SkipsOnAnImmediate :
    State.reset.readV 15 = 0#8 ∧ State.reset.readV 15 ≠ 1#8 := by decide

theorem witness_SkipsOnTwoRegisters :
    (two 7#8 7#8).readV 1 = (two 7#8 7#8).readV 2 ∧ (two 7#8 8#8).readV 1 ≠ (two 7#8 8#8).readV 2 ∧
    (1#4 ≠ 0#4 ∧ 0xF#4 ≠ 0#4) := by decide

/-- For the statements on ADD, SUB, SHR, SUBN and SHL: a destination other than VF, and a register that
is neither; for the loads and the rest: a register other than the destination. -/
theorem witness_FlagInstructions : (0 : Reg) ≠ 15 ∧ (14 : Reg) ≠ 15 ∧ (3 : Reg) ≠ 14 ∧ (3 : Reg) ≠ 15 := by decide

theorem witness_RandomByteIsMasked : Fetches (at200 0xCFF0) (.rnd 15 0xF0#8) := by
  unfold Fetches Running; decide

theorem witness_BcdStoresThreeDigitsOrFaults :
    (Canonical (State.reset.setI 0xFFD#16) ∧ (State.reset.setI 0xFFD#16).i.toNat + 2 ≤ 0xFFF) ∧
    (State.reset.setI 0xFFE#16).i.toNat + 2 > 0xFFF := by unfold Canonical; decide

theorem witness_RegisterDumpStoresV0ToVxOrFaults :
    (Canonical (State.reset.setI 0xFF0#16) ∧ (State.reset.setI 0xFF0#16).i.toNat + (15 : Reg).val ≤ 0xFFF) ∧
    (State.reset.setI 0xFF1#16).i.toNat + (15 : Reg).val > 0xFFF ∧ (15 : Reg) ≤ 15 := by unfold Canonical; decide

theorem witness_RegisterLoadReadsV0ToVxOrFaults :
    (State.reset.setI 0xFFF#16).i.toNat + (0 : Reg).val ≤ 0xFFF ∧ (0 : Reg) < 1 ∧
    (State.reset.setI 0x1000#16).i.toNat + (0 : Reg).val > 0xFFF := by decide

theorem witness_ClearScreenZeroesOnlyTheFramebuffer :
    Canonical (poke 0x1FF 0x55#8 (poke 0x100 0xAA#8 State.reset)) := by unfold Canonical; decide

/-- n = 0 with I out of range, the last I for n = 15, and the first I past it. -/
theorem witness_DrawXorsTheSpriteRowByRowOrFaults :
    (Canonical (State.reset.setI 0xFFFF#16) ∧ (0 : Reg).val = 0) ∧
    (Canonical (State.reset.setI 0xFF1#16) ∧ (State.reset.setI 0xFF1#16).i.toNat + (15 : Reg).val - 1 ≤ 0xFFF) ∧
    ((15 : Reg).val ≠ 0 ∧ (State.reset.setI 0xFF2#16).i.toNat + (15 : Reg).val - 1 > 0xFFF) := by
  unfold Canonical; decide

theorem witness_KeySkipsTestTheLowNibblesKey :
    ((two 0x17#8 0#8).writeKey 7 true).readV 1 = 0x17#8 ∧
    (((two 0x17#8 0#8).writeKey 7 true).readV 1).toNat % 16 = (7 : Reg).val ∧
    ((two 0x17#8 0#8).writeKey 7 true).key[7] = true ∧ (two 0x17#8 0#8).key[7] = false := by decide

theorem witness_KeyReadTakesTheLowestKeyOrAwaits :
    (((State.reset.writeKey 15 true).writeKey 2 true).key[2] = true ∧
      ∀ j : Reg, j < 2 → ((State.reset.writeKey 15 true).writeKey 2 true).key[j] = false) ∧
    ((State.reset.writeKey 15 true).key[15] = true ∧
      ∀ j : Reg, j < 15 → (State.reset.writeKey 15 true).key[j] = false) ∧
    (∀ j : Reg, State.reset.key[j] = false) := by decide

end Sys2Proof.Tests
end

section
/-! SUPPORT. The statements on the encoding (30_encoding.md R71, R75). The idea: a word decodes to an
instruction exactly when it fits the mask and match value of the instruction's row and the operands are
the word's fields (`decode_eq_instr_iff`). Both statements follow from it. -/

namespace Sys2Proof.Proofs.Encoding

open Sys2Proof.Safety Sys2Proof.Laws.EncodingMatchesRow

/-! ### A word from its own fields -/

theorem wordNNN_opNNN {w : Word} {c : BitVec 4} (hc : (opClass w).toNat = c.toNat) :
    wordNNN c (opNNN w) = w := by
  apply BitVec.eq_of_toNat_eq
  rw [opClass_toNat] at hc
  rw [wordNNN_toNat, opNNN_toNat]; omega

theorem wordXKK_opX {w : Word} {c : BitVec 4} {kk : Byte} (hc : (opClass w).toNat = c.toNat)
    (hk : (opKK w).toNat = kk.toNat) : wordXKK c (opX w) kk = w := by
  apply BitVec.eq_of_toNat_eq
  rw [opClass_toNat] at hc
  rw [opKK_toNat] at hk
  rw [wordXKK_toNat, opX_val]; omega

theorem wordXYN_opX_opY {w : Word} {c n : BitVec 4} (hc : (opClass w).toNat = c.toNat)
    (hn : (opN w).val = n.toNat) : wordXYN c (opX w) (opY w) n = w := by
  apply BitVec.eq_of_toNat_eq
  rw [opClass_toNat] at hc
  rw [opN_val] at hn
  rw [wordXYN_toNat, opX_val, opY_val]; omega

/-! ### Encoding what was decoded, along the dispatch of R76 -/

theorem encode_of_decode0 {w : Word} {i : Instr} (hc : (opClass w).toNat = 0)
    (h : decode0 w = .instr i) : encode i = w := by
  unfold decode0 at h
  split at h
  · next hw => cases h; exact hw.symm
  · split at h
    · next hw => cases h; exact hw.symm
    · cases h; exact wordNNN_opNNN hc

theorem encode_of_decode8 {w : Word} {i : Instr} (hc : (opClass w).toNat = 8)
    (h : decode8 w = .instr i) : encode i = w := by
  unfold decode8 at h
  split at h <;> cases h
  all_goals next hn => exact wordXYN_opX_opY hc hn

theorem encode_of_decodeE {w : Word} {i : Instr} (hc : (opClass w).toNat = 14)
    (h : decodeE w = .instr i) : encode i = w := by
  unfold decodeE at h
  split at h <;> cases h
  all_goals next hk => exact wordXKK_opX hc hk

theorem encode_of_decodeF {w : Word} {i : Instr} (hc : (opClass w).toNat = 15)
    (h : decodeF w = .instr i) : encode i = w := by
  unfold decodeF at h
  split at h <;> cases h
  all_goals next hk => exact wordXKK_opX hc hk

theorem encode_of_decode {w : Word} {i : Instr} (h : decode w = .instr i) : encode i = w := by
  unfold decode at h
  split at h
  · next hc => exact encode_of_decode0 hc h
  · next hc => cases h; exact wordNNN_opNNN hc
  · next hc => cases h; exact wordNNN_opNNN hc
  · next hc => cases h; exact wordXKK_opX hc rfl
  · next hc => cases h; exact wordXKK_opX hc rfl
  · next hc =>
    split at h
    · next hn => cases h; exact wordXYN_opX_opY hc hn
    · cases h
  · next hc => cases h; exact wordXKK_opX hc rfl
  · next hc => cases h; exact wordXKK_opX hc rfl
  · next hc => exact encode_of_decode8 hc h
  · next hc =>
    split at h
    · next hn => cases h; exact wordXYN_opX_opY hc hn
    · cases h
  · next hc => cases h; exact wordNNN_opNNN hc
  · next hc => cases h; exact wordNNN_opNNN hc
  · next hc => cases h; exact wordXKK_opX hc rfl
  · next hc => cases h; exact wordXYN_opX_opY hc rfl
  · next hc => exact encode_of_decodeE hc h
  · have hlt := (opClass w).isLt
    simp only [imp_false] at *
    exact encode_of_decodeF (by omega) h

/-! ### What a decoded word says of its instruction -/

theorem operandsAre_encode (i : Instr) : OperandsAre i (encode i) := by
  cases i with
  | cls | ret => trivial
  | sys nnn | jp nnn | call nnn | ldI nnn | jpV0 nnn => exact (opNNN_wordNNN _ nnn).symm
  | seImm x kk | sneImm x kk | ldImm x kk | addImm x kk | rnd x kk =>
    exact ⟨(opX_wordXKK _ x kk).symm, (opKK_wordXKK _ x kk).symm⟩
  | seReg x y | sneReg x y | ldReg x y | orReg x y | andReg x y | xorReg x y | addReg x y
  | subReg x y | shr x y | subnReg x y | shl x y =>
    exact ⟨(opX_wordXYN _ x y _).symm, (opY_wordXYN _ x y _).symm⟩
  | drw x y n =>
    exact ⟨(opX_wordXYN _ x y _).symm, (opY_wordXYN _ x y _).symm, Fin.ext (opN_wordXYN _ x y _).symm⟩
  | skp x | sknp x | ldVxDt x | ldVxK x | ldDtVx x | ldStVx x | addI x | ldF x | ldB x | ldMemVx x
  | ldVxMem x => exact (opX_wordXKK _ x _).symm

theorem encode_and_mask (i : Instr) : encode i &&& (rowOf i).mask = (rowOf i).bits := by
  cases i with
  | cls | ret => rfl
  | sys nnn | jp nnn | call nnn | ldI nnn | jpV0 nnn => exact mask_nnn _ nnn
  | seImm x kk | sneImm x kk | ldImm x kk | addImm x kk | rnd x kk => exact mask_x _ x kk
  | seReg x y | sneReg x y | ldReg x y | orReg x y | andReg x y | xorReg x y | addReg x y
  | subReg x y | shr x y | subnReg x y | shl x y => exact mask_xys _ x y _
  | drw x y n => exact mask_xyn _ x y _
  | skp x | sknp x | ldVxDt x | ldVxK x | ldDtVx x | ldStVx x | addI x | ldF x | ldB x | ldMemVx x
  | ldVxMem x => exact mask_xkk _ x _

/-- Row `k` of R75 (counted from 0) applies to `w`: the word masked is the match value, and row SYS gives
way to CLS and RET. -/
def FitsRow (w : Word) (k : Nat) : Prop :=
  w &&& (opcodeRows.getD k ⟨0#16, 1#16⟩).mask = (opcodeRows.getD k ⟨0#16, 1#16⟩).bits ∧
    (k = 2 → w ≠ 0x00E0#16 ∧ w ≠ 0x00EE#16)

theorem fitsRow_of_decode {w : Word} {i : Instr} (h : decode w = .instr i) :
    FitsRow w (i.rowNumber - 1) := by
  refine ⟨encode_of_decode h ▸ encode_and_mask i, fun hk => ⟨?_, ?_⟩⟩
  · rintro rfl
    obtain rfl : Instr.cls = i := Decoded.instr.inj h
    exact absurd hk (by decide)
  · rintro rfl
    obtain rfl : Instr.ret = i := Decoded.instr.inj h
    exact absurd hk (by decide)

/-! ### Decoding a word that fits a row

A field that the mask covers is the match value's field, so the dispatch of R76 runs on literals. -/

theorem opClass_eq_of_and_eq {w m b : Word} (h : w &&& m = b) (hm : opClass m = 0xF#4) :
    opClass w = opClass b := by
  rw [← h, show opClass (w &&& m) = opClass w &&& opClass m from BitVec.extractLsb'_and, hm, and_nibble]

theorem opKK_eq_of_and_eq {w m b : Word} (h : w &&& m = b) (hm : opKK m = 0xFF#8) :
    opKK w = opKK b := by
  rw [← h, show opKK (w &&& m) = opKK w &&& opKK m from BitVec.extractLsb'_and, hm, and_byte]

theorem opN_eq_of_and_eq {w m b : Word} (h : w &&& m = b) (hm : nibble (opN m) = 0xF#4) :
    opN w = opN b := by
  have hn : nibble (opN (w &&& m)) = nibble (opN w) &&& nibble (opN m) := BitVec.extractLsb'_and
  rw [h, hm, and_nibble] at hn
  exact congrArg BitVec.toFin hn.symm

theorem decode_of_fitsRow {w : Word} {i : Instr} (ho : OperandsAre i w)
    (hf : FitsRow w (i.rowNumber - 1)) : decode w = .instr i := by
  obtain ⟨hmask, hsys⟩ := hf
  cases i with
  | cls | ret =>
    obtain rfl := (BitVec.and_allOnes (x := w)).symm.trans hmask
    rfl
  | sys nnn =>
    obtain ⟨hcls, hret⟩ := hsys rfl
    obtain rfl := ho
    simp only [Instr.rowNumber] at hmask
    unfold decode
    rw [opClass_eq_of_and_eq hmask rfl]
    exact (if_neg hcls).trans (if_neg hret)
  | jp nnn | call nnn | ldI nnn | jpV0 nnn =>
    obtain rfl := ho
    simp only [Instr.rowNumber] at hmask
    unfold decode
    rw [opClass_eq_of_and_eq hmask rfl]
    rfl
  | seImm x kk | sneImm x kk | ldImm x kk | addImm x kk | rnd x kk =>
    obtain ⟨rfl, rfl⟩ := ho
    simp only [Instr.rowNumber] at hmask
    unfold decode
    rw [opClass_eq_of_and_eq hmask rfl]
    rfl
  | drw x y n =>
    obtain ⟨rfl, rfl, rfl⟩ := ho
    simp only [Instr.rowNumber] at hmask
    unfold decode
    rw [opClass_eq_of_and_eq hmask rfl]
    rfl
  | seReg x y | sneReg x y =>
    obtain ⟨rfl, rfl⟩ := ho
    simp only [Instr.rowNumber] at hmask
    unfold decode
    rw [opClass_eq_of_and_eq hmask rfl, opN_eq_of_and_eq hmask rfl]
    rfl
  | ldReg x y | orReg x y | andReg x y | xorReg x y | addReg x y | subReg x y | shr x y
  | subnReg x y | shl x y =>
    obtain ⟨rfl, rfl⟩ := ho
    simp only [Instr.rowNumber] at hmask
    unfold decode decode8
    rw [opClass_eq_of_and_eq hmask rfl, opN_eq_of_and_eq hmask rfl]
    rfl
  | skp x | sknp x =>
    obtain rfl := ho
    simp only [Instr.rowNumber] at hmask
    unfold decode decodeE
    rw [opClass_eq_of_and_eq hmask rfl, opKK_eq_of_and_eq hmask rfl]
    rfl
  | ldVxDt x | ldVxK x | ldDtVx x | ldStVx x | addI x | ldF x | ldB x | ldMemVx x | ldVxMem x =>
    obtain rfl := ho
    simp only [Instr.rowNumber] at hmask
    unfold decode decodeF
    rw [opClass_eq_of_and_eq hmask rfl, opKK_eq_of_and_eq hmask rfl]
    rfl

/-- What the decoder answers, said once: an instruction exactly for the words that fit its row, with the
word's fields as operands. -/
theorem decode_eq_instr_iff (w : Word) (i : Instr) :
    decode w = .instr i ↔ OperandsAre i w ∧ FitsRow w (i.rowNumber - 1) :=
  ⟨fun h => ⟨encode_of_decode h ▸ operandsAre_encode i, fitsRow_of_decode h⟩,
    fun ⟨ho, hf⟩ => decode_of_fitsRow ho hf⟩

/-- The instruction of row `k` (counted from 0) whose operands are the fields of `w`. -/
def rowInstr (w : Word) (k : Fin 35) : Instr :=
  [.cls, .ret, .sys (opNNN w), .jp (opNNN w), .call (opNNN w), .seImm (opX w) (opKK w),
    .sneImm (opX w) (opKK w), .seReg (opX w) (opY w), .ldImm (opX w) (opKK w),
    .addImm (opX w) (opKK w), .ldReg (opX w) (opY w), .orReg (opX w) (opY w),
    .andReg (opX w) (opY w), .xorReg (opX w) (opY w), .addReg (opX w) (opY w),
    .subReg (opX w) (opY w), .shr (opX w) (opY w), .subnReg (opX w) (opY w),
    .shl (opX w) (opY w), .sneReg (opX w) (opY w), .ldI (opNNN w), .jpV0 (opNNN w),
    .rnd (opX w) (opKK w), .drw (opX w) (opY w) (opN w), .skp (opX w), .sknp (opX w),
    .ldVxDt (opX w), .ldVxK (opX w), .ldDtVx (opX w), .ldStVx (opX w), .addI (opX w), .ldF (opX w),
    .ldB (opX w), .ldMemVx (opX w), .ldVxMem (opX w)].get k

theorem rowNumber_rowInstr (w : Word) (k : Fin 35) : (rowInstr w k).rowNumber = k.val + 1 := by
  fin_cases k <;> rfl

theorem operandsAre_rowInstr (w : Word) (k : Fin 35) : OperandsAre (rowInstr w k) w := by
  fin_cases k <;> simp [rowInstr, OperandsAre]

/-- Two words of one row: the operands settle the instruction, since only the row's mask and match value
decide whether the word decodes to it. -/
theorem eq_of_rowNumber_eq {u : Word} {i j : Instr} (hj : decode u = .instr j)
    (hrow : i.rowNumber = j.rowNumber) (ho : OperandsAre i u) : i = j := by
  obtain ⟨_, hfits⟩ := (decode_eq_instr_iff u j).1 hj
  have hi : decode u = .instr i := (decode_eq_instr_iff u i).2 ⟨ho, hrow ▸ hfits⟩
  exact Decoded.instr.inj (hi.symm.trans hj)

/-! ### The fields of two fetched bytes (R71) -/

section
variable (b0 b1 : Byte)

theorem opClass_wordOfBytes : (opClass (wordOfBytes b0 b1)).toNat = b0.toNat / 16 := by
  rw [opClass_toNat, wordOfBytes_toNat]; omega

theorem opX_wordOfBytes : (opX (wordOfBytes b0 b1)).val = b0.toNat % 16 := by
  rw [opX_val, wordOfBytes_toNat]; omega

theorem opY_wordOfBytes : (opY (wordOfBytes b0 b1)).val = b1.toNat / 16 := by
  rw [opY_val, wordOfBytes_toNat]; omega

theorem opN_wordOfBytes : (opN (wordOfBytes b0 b1)).val = b1.toNat % 16 := by
  rw [opN_val, wordOfBytes_toNat]; omega

theorem opKK_wordOfBytes : opKK (wordOfBytes b0 b1) = b1 := by
  apply BitVec.eq_of_toNat_eq; rw [opKK_toNat, wordOfBytes_toNat]; omega

theorem opNNN_wordOfBytes :
    (opNNN (wordOfBytes b0 b1)).toNat = b0.toNat % 16 * 256 + b1.toNat := by
  rw [opNNN_toNat, wordOfBytes_toNat]; omega

end

theorem opKK_eq_append (w : Word) : opKK w = nibble (opY w) ++ nibble (opN w) := by
  apply BitVec.eq_of_toNat_eq
  rw [toNat_append_eq, nibble_toNat, nibble_toNat, opKK_toNat, opY_val, opN_val]; omega

theorem opNNN_eq_append (w : Word) : opNNN w = nibble (opX w) ++ opKK w := by
  apply BitVec.eq_of_toNat_eq
  rw [show (nibble (opX w) ++ opKK w : Addr12).toNat = _ from toNat_append_eq _ _, nibble_toNat,
    opNNN_toNat, opX_val, opKK_toNat]; omega

/-! ### The obligations -/

/-- Settles O1: the fields by arithmetic on the two bytes, the operands by `decode_eq_instr_iff`. -/
theorem fieldsComeFromTheFetchedBytes : Obligations.FieldsComeFromTheFetchedBytes := by
  unfold Obligations.FieldsComeFromTheFetchedBytes
  refine ⟨fun b0 b1 => ?_, fun w i h => ((decode_eq_instr_iff w i).1 h).1,
    fun w u i j _ hu hrow ho => eq_of_rowNumber_eq hu hrow ho, by decide, by decide⟩
  exact ⟨opClass_wordOfBytes b0 b1, opX_wordOfBytes b0 b1, opY_wordOfBytes b0 b1,
    opN_wordOfBytes b0 b1, opKK_wordOfBytes b0 b1, opNNN_wordOfBytes b0 b1, opKK_eq_append _,
    opNNN_eq_append _⟩

/-- Settles O5, by `decode_eq_instr_iff`: for the word's own fields as operands the operand condition holds,
which leaves the row's. -/
theorem opcodeMapRowsAreExact : Obligations.OpcodeMapRowsAreExact := by
  unfold Obligations.OpcodeMapRowsAreExact
  intro w k
  constructor
  · intro hf
    have hrow := rowNumber_rowInstr w k
    refine ⟨rowInstr w k, (decode_eq_instr_iff _ _).2 ⟨operandsAre_rowInstr w k, ?_⟩, hrow⟩
    rw [hrow]
    exact hf
  · rintro ⟨i, hi, hrow⟩
    obtain ⟨_, hfits⟩ := (decode_eq_instr_iff w i).1 hi
    rw [hrow] at hfits
    exact hfits

end Sys2Proof.Proofs.Encoding
end

section
/-! SUPPORT. The statements on control flow (41_control_flow.md R110 to R117). The idea: an instruction of
this family answers its state with another `pc`, a CALL or RET without a fault one with another call stack
besides (`onlyPc_setPc`, `onlyStackPc_setStack_setPc`); and a step is what its fetch gives
(`stepOn_of_fetches`, `stepOn_of_pc_above`). -/

namespace Sys2Proof.Proofs.ControlFlow

open Sys2Proof.Machine Sys2Proof.Safety Sys2Proof.Proofs.Encoding

/-! ### Decoding (R75 to R77) -/

/-- The word of a well-formed instruction decodes to it; only SYS can be ill-formed (R78). -/
theorem decode_encode {i : Instr} (hwf : i.wellFormed = true) : decode (encode i) = .instr i := by
  refine decode_of_fitsRow (operandsAre_encode i) ⟨encode_and_mask i, fun hrow => ?_⟩
  cases i with
  | sys nnn =>
    have hnnn : nnn ≠ 0x0E0#12 ∧ nnn ≠ 0x0EE#12 := by
      simpa [Instr.wellFormed, sysIsLegacy] using hwf
    have hop : opNNN (encode (.sys nnn)) = nnn := opNNN_wordNNN _ nnn
    exact ⟨fun h => hnnn.1 (hop.symm.trans (congrArg opNNN h)),
      fun h => hnnn.2 (hop.symm.trans (congrArg opNNN h))⟩
  | _ => simp [Instr.rowNumber] at hrow

/-- Classes 5 and 9 have a meaning for the low nibble 0 only (R77). -/
theorem decode_invalid_of_opN_ne {w : Word} (hc : opClass w = 5#4 ∨ opClass w = 9#4)
    (hn : (opN w).val ≠ 0) : ∃ e, decode w = .invalid e := by
  unfold decode
  rcases hc with hc | hc <;> rw [hc] <;> exact ⟨_, if_neg hn⟩

/-! ### A step from its fetch (40_step_cycle.md R92 to R96) -/

theorem stepOn_of_pc_above {s : State} (hrun : Running s) (hpc : 0xFFE < s.pc.toNat) (r : Byte) :
    stepOn r s = .next (faulted .addressOutOfRange s) := by
  have hfault : s.fault = none := hrun
  simp only [stepOn, hfault, State.fetch_none hpc]
  rfl

theorem stepOn_of_fetches {s : State} {i : Instr} (h : Fetches s i) (r : Byte) :
    stepOn r s = runInstr r i s.clearOut := by
  obtain ⟨hrun, hpc, hdec⟩ := h
  have hfault : s.fault = none := hrun
  simp only [stepOn, hfault, State.fetch_some hpc, runWord, hdec]

theorem stepOn_of_fetches_fault {s : State} {i : Instr} {f : Fault} (h : Fetches s i)
    (hf : faultCondition i s = some f) (r : Byte) : stepOn r s = .next (faulted f s) := by
  have hclear : faultCondition i s.clearOut = some f := (faultCondition_clearOut i s).trans hf
  rw [stepOn_of_fetches h r]
  simp only [runInstr, hclear, exec_fault hclear]
  rfl

theorem stepOn_of_fetches_none {s : State} {i : Instr} (h : Fetches s i)
    (hf : faultCondition i s = none) (r : Byte) :
    stepOn r s = exec i (s.clearOut.sample r).tick := by
  have hclear : faultCondition i s.clearOut = none := (faultCondition_clearOut i s).trans hf
  rw [stepOn_of_fetches h r]
  simp only [runInstr, hclear]
  rfl

/-! ### Writing pc and the call stack -/

theorem zextNNN_toNat (nnn : Addr12) : (zextNNN nnn).toNat = nnn.toNat :=
  BitVec.toNat_setWidth_of_le (by decide)

theorem onlyPc_setPc (w : Word) (s : State) : OnlyPc s (s.setPc w) :=
  ⟨fun _ => rfl, fun _ => rfl, rfl, ⟨rfl, rfl⟩, ⟨rfl, rfl⟩, ⟨rfl, rfl, rfl, rfl⟩, rfl⟩

theorem onlyStackPc_setStack_setPc (st : StackEntries) (sp : StackPointer) (w : Word) (s : State) :
    OnlyStackPc s ((s.setStack st sp).setPc w) :=
  ⟨fun _ => rfl, fun _ => rfl, rfl, ⟨rfl, rfl⟩, ⟨rfl, rfl, rfl, rfl⟩, rfl⟩

theorem skipIf_pc_of_true {p : Prop} [Decidable p] (s : State) (h : p) :
    (s.skipIf (decide p)).pc = s.pc + 4#16 := by
  simp [State.skipIf, h]

theorem skipIf_pc_of_false {p : Prop} [Decidable p] (s : State) (h : ¬p) :
    (s.skipIf (decide p)).pc = s.pc + 2#16 := by
  simp [State.skipIf, h]

/-! ### CALL and RET without a fault (R111, R113) -/

theorem exec_ret {s : State} (h : s.sp.val ≠ 0) : exec .ret s = .next (s.pop.setPc s.top) :=
  congrArg Host.Outcome.next (guarded_none (retFault_none.2 h) _ s)

theorem exec_call {s : State} (nnn : Addr12) (h : s.sp.val < 16) :
    exec (.call nnn) s = .next ((s.push (s.pc + 2#16)).setPc (zextNNN nnn)) :=
  congrArg Host.Outcome.next (guarded_none (callFault_none.2 h) _ s)

theorem push_sp_val {s : State} (a : Word) (h : s.sp.val < 16) :
    (s.push a).sp.val = s.sp.val + 1 := spUp_val h

/-- A RET on the state a CALL leaves finds the pushed address. -/
theorem exec_ret_after_call {s : State} (nnn : Addr12) (h : s.sp.val < 16) :
    ∃ t w, exec (.call nnn) s = .next t ∧ exec .ret t = .next w ∧ w.pc = s.pc + 2#16 := by
  refine ⟨_, _, exec_call nnn h, exec_ret ?_, (State.top_push _ h).1⟩
  rw [State.setPc_sp, push_sp_val _ h]
  omega

/-- The return address of a CALL that can be fetched does not wrap (R24, R113). -/
theorem returnAddress_le {s : State} {i : Instr} (h : Fetches s i) :
    (s.pc + 2#16).toNat ≤ 0x1000 := by
  obtain ⟨_, hpc, _⟩ := h
  bv_omega

/-! ### The obligations -/

/-- Settles O30: SYS is `advance`, in a step after the timer phase. -/
theorem sysIsANoOperation : Obligations.SysIsANoOperation := by
  unfold Obligations.SysIsANoOperation
  intro nnn s
  refine ⟨fun hcls hret => decode_encode (i := .sys nnn) ?_, ⟨_, rfl, rfl, onlyPc_setPc _ s⟩,
    fun r hfetch => ⟨_, stepOn_of_fetches_none hfetch rfl r, rfl, countDown_toNat _, countDown_toNat _,
      fun _ => rfl, fun _ => rfl, rfl, ⟨rfl, rfl⟩, hfetch.1⟩⟩
  simp [Instr.wellFormed, sysIsLegacy, hcls, hret]

/-- Settles O31: SP decides between the pop of `exec_ret` and the fault of `exec_fault`. -/
theorem returnPopsOrUnderflows : Obligations.ReturnPopsOrUnderflows := by
  unfold Obligations.ReturnPopsOrUnderflows
  refine ⟨rfl, fun s => ⟨fun hsp => ?_, fun hsp => ?_, fun nnn hsp => exec_ret_after_call nnn hsp⟩⟩
  · exact ⟨_, exec_ret hsp, rfl, fun j hj => State.top_eq j hj, rfl,
      onlyStackPc_setStack_setPc _ _ _ s,
      fun hrun hpc r => stepOn_of_pc_above (s := s.pop.setPc s.top) hrun hpc r⟩
  · have hf : faultCondition .ret s = some .stackUnderflow := retFault_some hsp
    exact ⟨exec_fault hf, fun r hfetch => stepOn_of_fetches_fault hfetch hf r⟩

/-- Settles O32: JP is `setPc`, and 0xFFF is past the last address a word is fetched at. -/
theorem jumpSetsPcToItsAddress : Obligations.JumpSetsPcToItsAddress := by
  unfold Obligations.JumpSetsPcToItsAddress
  intro nnn s
  refine ⟨decode_encode (i := .jp nnn) rfl, _, rfl, zextNNN_toNat nnn, onlyPc_setPc _ s, ?_⟩
  rintro rfl hrun r
  exact stepOn_of_pc_above (s := s.setPc (zextNNN 0xFFF#12)) hrun (by simp [zextNNN_toNat]) r

/-- Settles O33: SP decides between the push of `exec_call` and the fault of `exec_fault`. -/
theorem callPushesOrOverflows : Obligations.CallPushesOrOverflows := by
  unfold Obligations.CallPushesOrOverflows
  intro nnn s
  refine ⟨decode_encode (i := .call nnn) rfl, fun hsp => ?_, fun hsp => ?_, returnAddress_le⟩
  · exact ⟨_, exec_call nnn hsp, push_sp_val (s.pc + 2#16) hsp, State.push_stack _, zextNNN_toNat nnn,
      onlyStackPc_setStack_setPc _ _ _ s⟩
  · have hf : faultCondition (.call nnn) s = some .stackOverflow := callFault_some hsp
    exact ⟨exec_fault hf, fun r hfetch => stepOn_of_fetches_fault hfetch hf r⟩

/-- Settles O34: both are `skipIf` on their comparison. -/
theorem skipsOnAnImmediate : Obligations.SkipsOnAnImmediate := by
  unfold Obligations.SkipsOnAnImmediate
  intro x kk s
  exact ⟨decode_encode (i := .seImm x kk) rfl, decode_encode (i := .sneImm x kk) rfl,
    ⟨_, rfl, onlyPc_setPc _ s, skipIf_pc_of_true s, skipIf_pc_of_false s⟩,
    ⟨_, rfl, onlyPc_setPc _ s, skipIf_pc_of_true s, fun h => skipIf_pc_of_false s (not_not.2 h)⟩⟩

/-- Settles O35: both are `skipIf` on their comparison, and any low nibble but 0 is rejected. -/
theorem skipsOnTwoRegisters : Obligations.SkipsOnTwoRegisters := by
  unfold Obligations.SkipsOnTwoRegisters
  intro x y s
  refine ⟨decode_encode (i := .seReg x y) rfl, decode_encode (i := .sneReg x y) rfl, fun n hn => ?_,
    ⟨_, rfl, onlyPc_setPc _ s, skipIf_pc_of_true s, skipIf_pc_of_false s⟩,
    ⟨_, rfl, onlyPc_setPc _ s, skipIf_pc_of_true s, fun h => skipIf_pc_of_false s (not_not.2 h)⟩⟩
  have hne (c : BitVec 4) : (opN (wordXYN c x y n)).val ≠ 0 := by
    rw [opN_wordXYN]
    exact fun h => hn (BitVec.eq_of_toNat_eq h)
  exact ⟨decode_invalid_of_opN_ne (.inl (opClass_wordXYN _ x y n)) (hne _),
    decode_invalid_of_opN_ne (.inr (opClass_wordXYN _ x y n)) (hne _)⟩

end Sys2Proof.Proofs.ControlFlow
end

section
/-! SUPPORT. The statements on the ALU (42_alu.md R130 to R141). The idea: every instruction of this family
ends with `finish` or with `finishFlagged` (R142, R143), so what these two write and leave alone is said
once; what is left of each statement is its decoding and the value of its result and its flag. -/

namespace Sys2Proof.Proofs.Alu

open Sys2Proof.Machine Sys2Proof.Safety Sys2Proof.Proofs.Encoding Sys2Proof.Proofs.ControlFlow

/-! ### An instruction that writes Vx and no flag (R143) -/

theorem readV_finish_same (x : Reg) (b : Byte) (s : State) : (s.finish x b).readV x = b :=
  State.readV_writeV_same x b s

theorem sameVBut_finish (x : Reg) (b : Byte) (s : State) : SameVBut x s (s.finish x b) :=
  fun _ hr => State.readV_writeV_ne b s hr

theorem onlyVPc_finish (x : Reg) (b : Byte) (s : State) : OnlyVPc s (s.finish x b) :=
  ⟨fun _ => rfl, rfl, ⟨rfl, rfl⟩, ⟨rfl, rfl⟩, ⟨rfl, rfl, rfl, rfl⟩, rfl⟩

/-- The answer of such an instruction, for a property `P` of the byte it writes. -/
theorem answer_of_finish {P : Byte → Prop} {a : Answer} {x : Reg} {b : Byte} {s : State}
    (ha : a = .next (s.finish x b)) (hb : P b) :
    ∃ t, a = .next t ∧ P (t.readV x) ∧ SameVBut x s t ∧ t.pc = s.pc + 2#16 ∧ OnlyVPc s t :=
  ⟨_, ha, (readV_finish_same x b s).symm ▸ hb, sameVBut_finish x b s, rfl, onlyVPc_finish x b s⟩

/-! ### An instruction that writes Vx and then the flag (R142) -/

section
variable (x : Reg) (b : Byte) (f : Bool) (s : State)

theorem readV_finishFlagged_flag : (s.finishFlagged x b f).readV 15 = flagByte f :=
  State.readV_writeV_same 15 _ _

theorem readV_finishFlagged_ne {r : Reg} (hr : r ≠ 15) :
    (s.finishFlagged x b f).readV r = (s.writeV x b).readV r :=
  State.readV_writeV_ne (flagByte f) (s.writeV x b) hr

theorem onlyVPc_finishFlagged : OnlyVPc s (s.finishFlagged x b f) :=
  ⟨fun _ => rfl, rfl, ⟨rfl, rfl⟩, ⟨rfl, rfl⟩, ⟨rfl, rfl, rfl, rfl⟩, rfl⟩

end

theorem flagByte_of_iff {f : Bool} {p : Prop} [Decidable p] (hf : f = true ↔ p) :
    flagByte f = if p then 1#8 else 0#8 :=
  if_congr hf rfl rfl

/-- The answer of such an instruction, for a result of value `n` and a flag that says `p`. -/
theorem answer_of_finishFlagged {n : Nat} {p : Prop} [Decidable p] {a : Answer} {x : Reg} {b : Byte}
    {f : Bool} {s : State} (ha : a = .next (s.finishFlagged x b f)) (hb : b.toNat = n)
    (hf : f = true ↔ p) :
    ∃ t, a = .next t ∧ (x ≠ 15 → (t.readV x).toNat = n) ∧
      t.readV 15 = (if p then 1#8 else 0#8) ∧
      (∀ r : Reg, r ≠ x → r ≠ 15 → t.readV r = s.readV r) ∧ t.pc = s.pc + 2#16 ∧ OnlyVPc s t := by
  refine ⟨_, ha, fun hx => ?_, ?_, fun r hrx hr => ?_, rfl, onlyVPc_finishFlagged x b f s⟩
  · rw [readV_finishFlagged_ne x b f s hx, State.readV_writeV_same, hb]
  · rw [readV_finishFlagged_flag, flagByte_of_iff hf]
  · rw [readV_finishFlagged_ne x b f s hr, State.readV_writeV_ne b s hrx]

/-! ### The values of the results and of the flags -/

theorem toNat_sub_byte (a b : Byte) : (a - b).toNat = (256 + a.toNat - b.toNat) % 256 := by
  bv_omega

theorem toNat_ushiftRight_one (a : Byte) : (a >>> 1).toNat = a.toNat / 2 :=
  Nat.shiftRight_eq_div_pow a.toNat 1

theorem toNat_shiftLeft_one (a : Byte) : (a <<< 1).toNat = a.toNat * 2 % 256 := by
  rw [BitVec.toNat_shiftLeft, Nat.shiftLeft_eq]

theorem carry_iff (a b : Byte) : carry a b = true ↔ a.toNat + b.toNat > 255 := decide_eq_true_iff

theorem noBorrow_iff (a b : Byte) : noBorrow a b = true ↔ a.toNat ≥ b.toNat := decide_eq_true_iff

theorem shiftedOutRight_iff (a : Byte) : shiftedOutRight a = true ↔ a.toNat % 2 = 1 := by
  rw [shiftedOutRight, BitVec.getLsbD, Nat.testBit_zero, decide_eq_true_iff]

/-- Bit 7 is the sign bit of a byte. -/
theorem shiftedOutLeft_iff (a : Byte) : shiftedOutLeft a = true ↔ a.toNat ≥ 128 := by
  rw [show shiftedOutLeft a = a.msb from (BitVec.msb_eq_getLsbD_last a).symm, BitVec.msb_eq_decide,
    decide_eq_true_iff]

/-- A byte ANDed with `kk` has no bit outside `kk` (R141). -/
theorem and_and_not_eq_zero (a kk : Byte) : a &&& kk &&& ~~~kk = 0#8 := by
  rw [BitVec.and_assoc, BitVec.and_not_self]
  exact BitVec.and_zero

/-! ### The obligations -/

/-- Settles O37: LD Vx, kk is `finish`, and the SYS after it is `advance`. -/
theorem loadImmediateWritesOnlyVx : Obligations.LoadImmediateWritesOnlyVx := by
  unfold Obligations.LoadImmediateWritesOnlyVx
  intro x kk s
  have hx := readV_finish_same x kk s
  exact ⟨decode_encode (i := .ldImm x kk) rfl, _, rfl, hx, sameVBut_finish x kk s, rfl,
    onlyVPc_finish x kk s, fun _ => ⟨_, rfl, hx⟩⟩

/-- Settles O38: ADD Vx, kk is `finish` with the sum of two bytes, which wraps. -/
theorem addImmediateWrapsWithoutFlag : Obligations.AddImmediateWrapsWithoutFlag := by
  unfold Obligations.AddImmediateWrapsWithoutFlag
  intro x kk s
  exact ⟨decode_encode (i := .addImm x kk) rfl,
    answer_of_finish (P := fun b => b.toNat = ((s.readV x).toNat + kk.toNat) % 256) rfl
      (BitVec.toNat_add _ _)⟩

/-- Settles O39: LD Vx, Vy is `finish` with Vy. -/
theorem loadRegisterCopiesVy : Obligations.LoadRegisterCopiesVy := by
  unfold Obligations.LoadRegisterCopiesVy
  intro x y s
  exact ⟨decode_encode (i := .ldReg x y) rfl, answer_of_finish (P := (· = s.readV y)) rfl rfl⟩

/-- Settles O40: each of the three is `finish` with the bitwise operation on the two registers. -/
theorem logicLeavesVFAlone : Obligations.LogicLeavesVFAlone := by
  unfold Obligations.LogicLeavesVFAlone
  intro x y s
  refine ⟨decode_encode (i := .orReg x y) rfl, decode_encode (i := .andReg x y) rfl,
    decode_encode (i := .xorReg x y) rfl, ?_, ?_, ?_⟩
  · exact answer_of_finish
      (P := fun b => ∀ j, b.getLsbD j = ((s.readV x).getLsbD j || (s.readV y).getLsbD j)) rfl
      fun _ => BitVec.getLsbD_or
  · exact answer_of_finish
      (P := fun b => ∀ j, b.getLsbD j = ((s.readV x).getLsbD j && (s.readV y).getLsbD j)) rfl
      fun _ => BitVec.getLsbD_and
  · exact answer_of_finish
      (P := fun b => ∀ j, b.getLsbD j = ((s.readV x).getLsbD j ^^ (s.readV y).getLsbD j)) rfl
      fun _ => BitVec.getLsbD_xor

/-- Settles O41: ADD Vx, Vy is `finishFlagged` with the sum and the carry. -/
theorem addRegistersSetsCarry : Obligations.AddRegistersSetsCarry := by
  unfold Obligations.AddRegistersSetsCarry
  intro x y s
  exact ⟨decode_encode (i := .addReg x y) rfl,
    answer_of_finishFlagged rfl (BitVec.toNat_add _ _) (carry_iff _ _)⟩

/-- Settles O42: SUB Vx, Vy is `finishFlagged` with the difference and its no-borrow. -/
theorem subtractSetsNoBorrow : Obligations.SubtractSetsNoBorrow := by
  unfold Obligations.SubtractSetsNoBorrow
  intro x y s
  exact ⟨decode_encode (i := .subReg x y) rfl,
    answer_of_finishFlagged rfl (toNat_sub_byte _ _) (noBorrow_iff _ _)⟩

/-- Settles O43: SHR Vx is `finishFlagged` with half of Vx and its bit 0, for every y. -/
theorem shiftRightInPlace : Obligations.ShiftRightInPlace := by
  unfold Obligations.ShiftRightInPlace
  intro x y s
  exact ⟨decode_encode (i := .shr x y) rfl,
    answer_of_finishFlagged rfl (toNat_ushiftRight_one _) (shiftedOutRight_iff _)⟩

/-- Settles O44: SUBN Vx, Vy is `finishFlagged` with the reversed difference and its no-borrow. -/
theorem reverseSubtractSetsNoBorrow : Obligations.ReverseSubtractSetsNoBorrow := by
  unfold Obligations.ReverseSubtractSetsNoBorrow
  intro x y s
  exact ⟨decode_encode (i := .subnReg x y) rfl,
    answer_of_finishFlagged rfl (toNat_sub_byte _ _) (noBorrow_iff _ _)⟩

/-- Settles O45: SHL Vx is `finishFlagged` with twice Vx and its bit 7, for every y. -/
theorem shiftLeftInPlace : Obligations.ShiftLeftInPlace := by
  unfold Obligations.ShiftLeftInPlace
  intro x y s
  exact ⟨decode_encode (i := .shl x y) rfl,
    answer_of_finishFlagged rfl (toNat_shiftLeft_one _) (shiftedOutLeft_iff _)⟩

/-- Settles O46: RND is `finish` with the masked byte, in a step on the state whose port holds `r`; the
timer phase and the cleared result leave the registers. -/
theorem randomByteIsMasked : Obligations.RandomByteIsMasked := by
  unfold Obligations.RandomByteIsMasked
  intro x kk s
  refine ⟨decode_encode (i := .rnd x kk) rfl, ?_, fun r hfetch => ?_⟩
  · exact ⟨_, rfl, fun j => by rw [readV_finish_same, BitVec.getLsbD_and],
      by rw [readV_finish_same, and_and_not_eq_zero], sameVBut_finish x _ s, rfl,
      onlyVPc_finish x _ s⟩
  · exact ⟨_, stepOn_of_fetches_none hfetch rfl r, readV_finish_same x (r &&& kk) _,
      sameVBut_finish x (r &&& kk) (s.clearOut.sample r).tick⟩

end Sys2Proof.Proofs.Alu
end

section
/-! SUPPORT. The statements on the index register and the memory instructions (43_index_memory.md R150, R153
to R155). The idea: each of the three that reach memory is decided by its range check. In range it is its
effect without the check (`exec_ldB`, `exec_ldMemVx`, `exec_ldVxMem`), which writes memory alone or registers
alone; the block laws of Laws/Memory.lean and Laws/Blocks.lean, read at `I + j` and outside the block, give
the bytes. Out of range it is the fault of `exec_fault`. -/

namespace Sys2Proof.Proofs.IndexMemory

open Sys2Proof.Machine Sys2Proof.Safety Sys2Proof.Proofs.ControlFlow

/-! ### What the effects leave alone -/

theorem onlyIPc_setI_advance (w : Word) (s : State) : OnlyIPc s (s.setI w).advance :=
  ⟨fun _ => rfl, fun _ => rfl, ⟨rfl, rfl⟩, ⟨rfl, rfl⟩, ⟨rfl, rfl, rfl, rfl⟩, rfl⟩

theorem onlyMemPc_setMem_advance (m : Memory) (s : State) : OnlyMemPc s (s.setMem m).advance :=
  ⟨fun _ => rfl, rfl, ⟨rfl, rfl⟩, ⟨rfl, rfl⟩, ⟨rfl, rfl, rfl, rfl⟩, rfl⟩

theorem loadRegs_advance_pc (s : State) (k : Nat) : (loadRegs s k).advance.pc = s.pc + 2#16 := by
  obtain ⟨v, hv⟩ := loadRegs_eq s k
  rw [hv]
  rfl

theorem onlyVPc_loadRegs_advance (s : State) (k : Nat) : OnlyVPc s (loadRegs s k).advance := by
  obtain ⟨v, hv⟩ := loadRegs_eq s k
  rw [hv]
  exact ⟨fun _ => rfl, rfl, ⟨rfl, rfl⟩, ⟨rfl, rfl⟩, ⟨rfl, rfl, rfl, rfl⟩, rfl⟩

/-! ### The instructions in range (R95) -/

section
variable {s : State} (x : Reg)

theorem exec_ldB (h : s.i.toNat + 2 ≤ 0xFFF) :
    exec (.ldB x) s =
      .next (s.setMem (Memory.writeList s.mem s.i.toNat (bcdDigits (s.readV x)))).advance :=
  congrArg Host.Outcome.next (guarded_none (rangeFault_none.2 h) _ s)

theorem exec_ldMemVx (h : s.i.toNat + x.val ≤ 0xFFF) :
    exec (.ldMemVx x) s = .next (s.setMem (storeRegs s (x.val + 1))).advance :=
  congrArg Host.Outcome.next (guarded_none (rangeFault_none.2 h) _ s)

theorem exec_ldVxMem (h : s.i.toNat + x.val ≤ 0xFFF) :
    exec (.ldVxMem x) s = .next (loadRegs s (x.val + 1)).advance :=
  congrArg Host.Outcome.next (guarded_none (rangeFault_none.2 h) _ s)

end

/-! ### A block of bytes, read inside and outside -/

section
variable {m : Memory} {a : Nat} {bs : List Byte} (h : Memory.wf m = true)
  (ha : a + bs.length ≤ 0x1000)
include h ha

theorem read_writeList_inside {j : Nat} (hj : j < bs.length) :
    Memory.read (Memory.writeList m a bs) (a + j) = bs[j] := by
  rw [Memory.read_writeList h ha, if_pos (by omega), Nat.add_sub_cancel_left,
    List.getD_eq_getElem _ _ hj]

theorem read_writeList_outside {y : Nat} (hy : y < a ∨ a + bs.length ≤ y) :
    Memory.read (Memory.writeList m a bs) y = Memory.read m y := by
  rw [Memory.read_writeList h ha, if_neg (by omega)]

end

section
variable {s : State} {k : Nat} (h : Canonical s) (hk : s.i.toNat + k ≤ 0x1000)
include h hk

theorem read_storeRegs_inside {j : Reg} (hj : j.val < k) :
    Memory.read (storeRegs s k) (s.i.toNat + j.val) = s.readV j := by
  rw [storeRegs_read h hk, if_pos (by omega), Nat.add_sub_cancel_left, Fin.ofNat_val_eq_self]

theorem read_storeRegs_outside {y : Nat} (hy : y < s.i.toNat ∨ s.i.toNat + k ≤ y) :
    Memory.read (storeRegs s k) y = Memory.read s.mem y := by
  rw [storeRegs_read h hk, if_neg (by omega)]

end

/-- A number that is at most a byte, as every digit of the byte is, fits a byte. -/
theorem toNat_ofNat_of_le_toNat {n : Nat} {b : Byte} (h : n ≤ b.toNat) :
    (BitVec.ofNat 8 n).toNat = n :=
  (BitVec.toNat_ofNat n 8).trans (Nat.mod_eq_of_lt (Nat.lt_of_le_of_lt h b.isLt))

/-! ### The obligations -/

/-- Settles O47: LD I, nnn is `setI` and `advance`. -/
theorem loadIndexTakesTheAddress : Obligations.LoadIndexTakesTheAddress := by
  unfold Obligations.LoadIndexTakesTheAddress
  intro nnn s
  exact ⟨decode_encode (i := .ldI nnn) rfl, _, rfl, zextNNN_toNat nnn, rfl,
    onlyIPc_setI_advance (zextNNN nnn) s⟩

/-- Settles O50: the range check decides between the three digits written in a row and the fault. -/
theorem bcdStoresThreeDigitsOrFaults : Obligations.BcdStoresThreeDigitsOrFaults := by
  unfold Obligations.BcdStoresThreeDigitsOrFaults
  intro x s
  refine ⟨decode_encode (i := .ldB x) rfl, fun hcan hle => ?_,
    fun hgt => exec_fault (i := .ldB x) (rangeFault_some hgt)⟩
  have hfit : s.i.toNat + (bcdDigits (s.readV x)).length ≤ 0x1000 := Nat.succ_le_succ hle
  have hdigit (j : Nat) (hj : j < 3) := read_writeList_inside hcan hfit (j := j) hj
  refine ⟨_, exec_ldB x hle, ?_, ?_, ?_, fun _ => read_writeList_outside hcan hfit, rfl,
    onlyMemPc_setMem_advance _ s⟩
  · exact (congrArg BitVec.toNat (hdigit 0 (by decide))).trans
      (toNat_ofNat_of_le_toNat (Nat.div_le_self _ _))
  · exact (congrArg BitVec.toNat (hdigit 1 (by decide))).trans
      (toNat_ofNat_of_le_toNat ((Nat.mod_le _ _).trans (Nat.div_le_self _ _)))
  · exact (congrArg BitVec.toNat (hdigit 2 (by decide))).trans
      (toNat_ofNat_of_le_toNat (Nat.mod_le _ _))

/-- Settles O51: the range check decides between `storeRegs` of x + 1 registers and the fault. -/
theorem registerDumpStoresV0ToVxOrFaults : Obligations.RegisterDumpStoresV0ToVxOrFaults := by
  unfold Obligations.RegisterDumpStoresV0ToVxOrFaults
  intro x s
  refine ⟨decode_encode (i := .ldMemVx x) rfl, fun hcan hle => ?_,
    fun hgt => exec_fault (i := .ldMemVx x) (rangeFault_some hgt)⟩
  have hfit : s.i.toNat + (x.val + 1) ≤ 0x1000 := Nat.succ_le_succ hle
  exact ⟨_, exec_ldMemVx x hle, fun _ hj => read_storeRegs_inside hcan hfit (Nat.lt_succ_of_le hj),
    fun _ => read_storeRegs_outside hcan hfit, rfl, onlyMemPc_setMem_advance _ s⟩

/-- Settles O52: the range check decides between `loadRegs` of x + 1 registers and the fault. -/
theorem registerLoadReadsV0ToVxOrFaults : Obligations.RegisterLoadReadsV0ToVxOrFaults := by
  unfold Obligations.RegisterLoadReadsV0ToVxOrFaults
  intro x s
  refine ⟨decode_encode (i := .ldVxMem x) rfl, fun hle => ?_,
    fun hgt => exec_fault (i := .ldVxMem x) (rangeFault_some hgt)⟩
  have hread := loadRegs_readV (s := s) (k := x.val + 1) x.isLt
  exact ⟨_, exec_ldVxMem x hle, fun j hj => (hread j).trans (if_pos (Nat.lt_succ_of_le hj)),
    fun j hj => (hread j).trans (if_neg (Nat.not_lt_of_le hj)),
    loadRegs_advance_pc s (x.val + 1), onlyVPc_loadRegs_advance s (x.val + 1)⟩

end Sys2Proof.Proofs.IndexMemory
end

section
/-! SUPPORT. The statements on the round trip and on the invalid words (30_encoding.md R75 to R78). The
round trip is `decode_encode` and `encode_of_decode`; the invalid words are read off the dispatch of R76,
one lemma per level of it. -/

namespace Sys2Proof.Proofs.Decoding

open Sys2Proof.Safety Sys2Proof.Proofs.Encoding Sys2Proof.Proofs.ControlFlow

/-! ### A decoded instruction is well-formed (R78) -/

theorem wellFormed_of_decode {w : Word} {i : Instr} (h : decode w = .instr i) : i.wellFormed = true := by
  cases i with
  | sys nnn =>
    obtain ⟨hcls, hret⟩ := (fitsRow_of_decode h).2 rfl
    have hw : wordNNN 0x0#4 nnn = w := encode_of_decode h
    simp only [Instr.wellFormed, sysIsLegacy, Bool.and_eq_true, decide_eq_true_eq]
    constructor
    · rintro rfl
      exact hcls hw.symm
    · rintro rfl
      exact hret hw.symm
  | _ => rfl

/-! ### The words without a meaning, along the dispatch of R76 (R77) -/

theorem decode0_ne_invalid (w : Word) (r : Reject) : decode0 w ≠ .invalid r := by
  unfold decode0
  split
  · exact Decoded.noConfusion
  · split <;> exact Decoded.noConfusion

theorem decode8_invalid_iff (w : Word) :
    (∃ r, decode8 w = .invalid r) ↔ 8 ≤ (opN w).val ∧ (opN w).val ≠ 0xE := by
  have hlt := (opN w).isLt
  unfold decode8
  split
  case h_10 =>
    simp only [Decoded.invalid.injEq, exists_eq', true_iff, imp_false] at *
    omega
  all_goals next hn => simp [hn]

theorem decodeE_invalid_iff (w : Word) :
    (∃ r, decodeE w = .invalid r) ↔ (opKK w).toNat ≠ 0x9E ∧ (opKK w).toNat ≠ 0xA1 := by
  unfold decodeE
  split
  case h_3 h9E hA1 => simpa using ⟨h9E, hA1⟩
  all_goals next hk => simp [hk]

theorem decodeF_invalid_iff (w : Word) :
    (∃ r, decodeF w = .invalid r) ↔
      (opKK w).toNat ∉ [0x07, 0x0A, 0x15, 0x18, 0x1E, 0x29, 0x33, 0x55, 0x65] := by
  unfold decodeF
  split
  case h_10 => simp_all
  all_goals next hk => simp [hk]

/-- The words the decoder rejects are those of R77. -/
theorem decode_invalid_iff (w : Word) : (∃ r, decode w = .invalid r) ↔ InvalidWord w := by
  have hlt := (opClass w).isLt
  have hn := (opN w).isLt
  unfold InvalidWord
  rw [← opClass_toNat, ← opN_val, ← opKK_toNat]
  unfold decode
  split
  case h_1 hc => simp [hc, decode0_ne_invalid]
  case h_6 hc | h_10 hc => split <;> simp_all
  case h_9 hc => rw [decode8_invalid_iff, hc]; omega
  case h_15 hc => simp [hc, decodeE_invalid_iff]
  case h_16 =>
    have hc : (opClass w).toNat = 15 := by simp only [imp_false] at *; omega
    simp [hc, decodeF_invalid_iff]
  all_goals next hc => simp [hc]

/-! ### The obligations -/

/-- Settles O3: the word of an instruction fits its row, and a word decodes by its row. -/
theorem decodingAnEncodedInstructionGivesItBack :
    Obligations.DecodingAnEncodedInstructionGivesItBack := by
  unfold Obligations.DecodingAnEncodedInstructionGivesItBack
  exact fun _ hwf => decode_encode hwf

/-- Settles O4: the encoding by the dispatch of the decoder, SYS well-formed since CLS and RET come first. -/
theorem encodingADecodedInstructionGivesTheWordBack :
    Obligations.EncodingADecodedInstructionGivesTheWordBack := by
  unfold Obligations.EncodingADecodedInstructionGivesTheWordBack
  exact fun _ _ h => ⟨wellFormed_of_decode h, encode_of_decode h⟩

/-- Settles O6, along the dispatch of the decoder. -/
theorem invalidWordsAreExactlyThoseOfTheTable : Obligations.InvalidWordsAreExactlyThoseOfTheTable := by
  unfold Obligations.InvalidWordsAreExactlyThoseOfTheTable
  exact decode_invalid_iff

/-- Settles O2, a fixed word in each clause. -/
theorem sampleWordsDecodeAsTheirPatterns : Obligations.SampleWordsDecodeAsTheirPatterns := by
  unfold Obligations.SampleWordsDecodeAsTheirPatterns
  exact ⟨rfl, rfl, rfl, rfl, rfl, rfl, rfl, rfl, rfl, rfl, ⟨_, rfl⟩, ⟨_, rfl⟩⟩

end Sys2Proof.Proofs.Decoding
end

section
/-! SUPPORT. The statements on what any instruction writes (10_state.md R20, R24; 40_step_cycle.md R97). The
idea: an instruction without a fault answers a state that is `framed`, the state before it but for the fields
its row of R20 lists, with `pc` at `nextPc` and the result at `nextOut` (`exec_framed`); one with a fault
changes the latch and the result (`exec_fault`). What the fields `st`, `rnd` and `draws` hold is seen by LD
ST and RND alone (`exec_overlay`). -/

namespace Sys2Proof.Proofs.Frame

open Sys2Proof.Machine Sys2Proof.Safety Sys2Proof.Proofs.ControlFlow Sys2Proof.Proofs.IndexMemory

/-! ### The fault table -/

/-- The fault condition of the model is the table of 40_step_cycle.md R95. -/
theorem tableFault_eq (i : Instr) (s : State) : tableFault i s = faultCondition i s := by
  cases i with
  | drw x y n =>
    by_cases h : 1 ≤ n.val ∧ s.i.toNat + n.val - 1 > 0xFFF
    · exact (if_pos h).trans (drawFault_some (by omega) h.2).symm
    · exact (if_neg h).trans (drawFault_none.2 (by omega)).symm
  | _ => rfl

/-! ### What an instruction without a fault writes -/

/-- The result after an instruction that does not fault (R98). -/
def nextOut (i : Instr) (s : State) : Output :=
  match i with
  | .cls | .drw _ _ _ => { s.out with redraw := true }
  | .ldVxK x => if ∃ k : Reg, s.key[k] = true then s.out else { s.out with await := some x }
  | _ => s.out

/-- `t` in the fields that `i` writes by R20, `s` in all others; `pc` and the result as `i` leaves them. -/
def framed (i : Instr) (s t : State) : State where
  v := if writesV i then t.v else s.v
  i := if writesI i then t.i else s.i
  dt := if writesDt i then t.dt else s.dt
  st := if writesSt i then t.st else s.st
  pc := nextPc i s
  stack := if writesStack i then t.stack else s.stack
  sp := if writesStack i then t.sp else s.sp
  mem := if writesMem i then t.mem else s.mem
  key := s.key
  fault := s.fault
  out := nextOut i s
  rnd := s.rnd
  draws := s.draws

/-! ### The two answers of LD Vx, K (R195, R197) -/

theorem exec_ldVxK_none {s : State} (x : Reg) (h : ∀ k : Reg, s.key[k] = false) :
    exec (.ldVxK x) s = .next (s.awaitKey x) := by
  simp only [exec, execLdVxK, lowestPressed_none.2 h]

theorem exec_ldVxK_some {s : State} (x : Reg) {k : Reg} (hk : s.key[k] = true)
    (hlow : ∀ j : Reg, j < k → s.key[j] = false) :
    exec (.ldVxK x) s = .next (s.finish x (keyByte k)) := by
  simp only [exec, execLdVxK, lowestPressed_some.2 ⟨hk, hlow⟩]

theorem exec_ldVxK_framed (x : Reg) (s : State) :
    ∃ t, exec (.ldVxK x) s = .next t ∧ t = framed (.ldVxK x) s t := by
  cases hk : lowestPressed s.key with
  | none =>
    have hall := lowestPressed_none.1 hk
    have hno : ¬∃ k : Reg, s.key[k] = true := by simpa using hall
    have hpc : nextPc (.ldVxK x) s = s.pc := if_neg hno
    have hout : nextOut (.ldVxK x) s = { s.out with await := some x } := if_neg hno
    refine ⟨_, exec_ldVxK_none x hall, ?_⟩
    rw [framed, hpc, hout]
    rfl
  | some k =>
    obtain ⟨hpressed, hlow⟩ := lowestPressed_some.1 hk
    have hpc : nextPc (.ldVxK x) s = s.pc + 2#16 := if_pos ⟨k, hpressed⟩
    have hout : nextOut (.ldVxK x) s = s.out := if_pos ⟨k, hpressed⟩
    refine ⟨_, exec_ldVxK_some x hpressed hlow, ?_⟩
    rw [framed, hpc, hout]
    rfl

/-! ### All instructions -/

theorem exec_cls (s : State) :
    exec .cls s = .next (s.setMem (clearBytes s.mem 256)).requestRedraw.advance := rfl

theorem exec_drw {s : State} (x y : Reg) {n : Reg} (h : drawFault n s = none) :
    exec (.drw x y n) s = .next (s.afterDraw (drawSprite x y n s)) :=
  congrArg Host.Outcome.next (guarded_none h _ s)

/-- This and the next are stated for every memory, so that the 256 writes of CLS stay closed. -/
theorem setMem_requestRedraw_framed (m : Memory) (s : State) :
    (s.setMem m).requestRedraw.advance = framed .cls s (s.setMem m).requestRedraw.advance := rfl

theorem setMem_requestRedraw_mem (m : Memory) (s : State) :
    (s.setMem m).requestRedraw.advance.mem = m := rfl

theorem skipIf_framed {i : Instr} {c : Bool} {s : State}
    (hi : framed i s (s.skipIf c) = s.setPc (nextPc i s))
    (hpc : nextPc i s = if c then s.pc + 4#16 else s.pc + 2#16) : s.skipIf c = framed i s (s.skipIf c) := by
  rw [hi, hpc]
  rfl

theorem exec_framed {i : Instr} {s : State} (hf : faultCondition i s = none) :
    ∃ t, exec i s = .next t ∧ t = framed i s t := by
  cases i with
  | ret => exact ⟨_, exec_ret (retFault_none.1 hf), rfl⟩
  | call nnn => exact ⟨_, exec_call nnn (callFault_none.1 hf), rfl⟩
  | drw x y n => exact ⟨_, exec_drw x y hf, rfl⟩
  | ldB x => exact ⟨_, exec_ldB x (rangeFault_none.1 hf), rfl⟩
  | ldMemVx x => exact ⟨_, exec_ldMemVx x (rangeFault_none.1 hf), rfl⟩
  | ldVxMem x =>
    refine ⟨_, exec_ldVxMem x (rangeFault_none.1 hf), ?_⟩
    obtain ⟨v, hv⟩ := loadRegs_eq s (x.val + 1)
    rw [hv]
    rfl
  | seImm x kk | seReg x y | sneImm x kk | sneReg x y =>
    exact ⟨_, rfl, skipIf_framed rfl (by simp [nextPc])⟩
  | skp x => exact ⟨_, rfl, skipIf_framed rfl rfl⟩
  | sknp x =>
    refine ⟨_, rfl, skipIf_framed rfl ?_⟩
    cases hk : s.keyPressed x <;> simp [nextPc, hk]
  | ldVxK x => exact exec_ldVxK_framed x s
  | cls => exact ⟨_, exec_cls s, setMem_requestRedraw_framed _ s⟩
  | _ => exact ⟨_, rfl, rfl⟩

/-- The two cases of an instruction: its fault, or an answer that is `framed`. -/
theorem exec_cases (i : Instr) (s : State) :
    (∃ f, faultCondition i s = some f ∧ exec i s = .next (s.takeFault f)) ∨
    (faultCondition i s = none ∧ ∃ t, exec i s = .next t ∧ t = framed i s t) := by
  cases hf : faultCondition i s with
  | some f => exact .inl ⟨f, rfl, exec_fault hf⟩
  | none => exact .inr ⟨rfl, exec_framed hf⟩

/-- What an instruction leaves alone, whether it faults or not. -/
structure Untouched (j : Instr) (s t : State) : Prop where
  v : writesV j = false → t.v = s.v
  index : writesI j = false → t.i = s.i
  dt : writesDt j = false → t.dt = s.dt
  st : writesSt j = false → t.st = s.st
  stack : writesStack j = false → t.stack = s.stack ∧ t.sp = s.sp
  mem : writesMem j = false → t.mem = s.mem
  key : t.key = s.key
  rnd : t.rnd = s.rnd
  draws : t.draws = s.draws

theorem untouched_takeFault (i : Instr) (f : Fault) (s : State) : Untouched i s (s.takeFault f) :=
  ⟨fun _ => rfl, fun _ => rfl, fun _ => rfl, fun _ => rfl, fun _ => ⟨rfl, rfl⟩, fun _ => rfl, rfl, rfl,
    rfl⟩

theorem untouched_of_framed {i : Instr} {s t : State} (h : t = framed i s t) : Untouched i s t where
  v hw := (congrArg State.v h).trans (if_neg (ne_true_of_eq_false hw))
  index hw := (congrArg State.i h).trans (if_neg (ne_true_of_eq_false hw))
  dt hw := (congrArg State.dt h).trans (if_neg (ne_true_of_eq_false hw))
  st hw := (congrArg State.st h).trans (if_neg (ne_true_of_eq_false hw))
  stack hw := ⟨(congrArg State.stack h).trans (if_neg (ne_true_of_eq_false hw)),
    (congrArg State.sp h).trans (if_neg (ne_true_of_eq_false hw))⟩
  mem hw := (congrArg State.mem h).trans (if_neg (ne_true_of_eq_false hw))
  key := (congrArg State.key h).trans rfl
  rnd := (congrArg State.rnd h).trans rfl
  draws := (congrArg State.draws h).trans rfl

theorem exec_untouched {i : Instr} {s t : State} (h : exec i s = .next t) : Untouched i s t := by
  rcases exec_cases i s with ⟨f, _, ht⟩ | ⟨_, u, hu, hframed⟩
  · obtain rfl := Host.Outcome.next.inj (ht.symm.trans h)
    exact untouched_takeFault i f s
  · obtain rfl := Host.Outcome.next.inj (hu.symm.trans h)
    exact untouched_of_framed hframed

/-! ### What only LD ST and RND see -/

/-- The state with other contents in the fields that no instruction but LD ST and RND reads or writes. -/
def overlay (b r : Byte) (n : Nat) (s : State) : State := { s with st := b, rnd := r, draws := n }

section
variable (b r : Byte) (n : Nat)

theorem guarded_overlay (c : Option Fault) {g : State → State} {s : State}
    (hg : g (overlay b r n s) = overlay b r n (g s)) :
    guarded c g (overlay b r n s) = overlay b r n (guarded c g s) := by
  cases c with
  | none => exact hg
  | some f => rfl

theorem storeRegs_overlay (s : State) (k : Nat) : storeRegs (overlay b r n s) k = storeRegs s k := by
  induction k with
  | zero => rfl
  | succ k ih => rw [storeRegs, storeRegs, ih]; rfl

theorem loadRegs_overlay (s : State) (k : Nat) :
    loadRegs (overlay b r n s) k = overlay b r n (loadRegs s k) := by
  induction k with
  | zero => rfl
  | succ k ih => rw [loadRegs, loadRegs, ih]; rfl

theorem setMem_requestRedraw_overlay (m : Memory) (s : State) :
    ((overlay b r n s).setMem m).requestRedraw.advance =
      overlay b r n (s.setMem m).requestRedraw.advance := rfl

/-- Every instruction but LD ST and RND answers alike whatever these fields hold. -/
theorem exec_overlay {i : Instr} (hst : ¬∃ x, i = .ldStVx x) (hrnd : ¬∃ x kk, i = .rnd x kk)
    (s : State) :
    ∃ t, exec i s = .next t ∧ exec i (overlay b r n s) = .next (overlay b r n t) := by
  cases i with
  | ldStVx x => exact absurd ⟨x, rfl⟩ hst
  | rnd x kk => exact absurd ⟨x, kk, rfl⟩ hrnd
  | ret | call nnn | drw x y n | ldB x =>
    exact ⟨_, rfl, congrArg Host.Outcome.next (guarded_overlay _ _ _ _ (by rfl))⟩
  | ldMemVx x =>
    refine ⟨_, rfl, congrArg Host.Outcome.next (guarded_overlay b r n (rangeFault s x.val) ?_)⟩
    rw [storeRegs_overlay]
    rfl
  | ldVxMem x =>
    refine ⟨_, rfl, congrArg Host.Outcome.next (guarded_overlay b r n (rangeFault s x.val) ?_)⟩
    rw [loadRegs_overlay]
    rfl
  | ldVxK x =>
    cases hk : lowestPressed s.key with
    | none =>
      have h := lowestPressed_none.1 hk
      exact ⟨_, exec_ldVxK_none x h, exec_ldVxK_none (s := overlay b r n s) x h⟩
    | some k =>
      obtain ⟨h, hlow⟩ := lowestPressed_some.1 hk
      exact ⟨_, exec_ldVxK_some x h hlow, exec_ldVxK_some (s := overlay b r n s) x h hlow⟩
  | cls =>
    have h := setMem_requestRedraw_overlay b r n (clearBytes s.mem 256) s
    exact ⟨_, exec_cls s, congrArg Host.Outcome.next h⟩
  | _ => exact ⟨_, rfl, rfl⟩

end

theorem writesSt_eq_false {i : Instr} (h : ¬∃ x, i = .ldStVx x) : writesSt i = false := by
  cases i with
  | ldStVx x => exact absurd ⟨x, rfl⟩ h
  | _ => rfl

/-! ### The obligations -/

/-- Settles O19: `exec_untouched`, and the latch by `exec_framed`. -/
theorem stateIsWrittenOnlyByTheListedInstructions :
    Obligations.StateIsWrittenOnlyByTheListedInstructions := by
  unfold Obligations.StateIsWrittenOnlyByTheListedInstructions
  intro i s
  obtain ⟨t, ht⟩ := exec_next i s
  obtain ⟨hv, hi, hdt, hst, hstack, hmem, hkey, hrnd, hdraws⟩ := exec_untouched ht
  refine ⟨t, ht, hv, hi, hdt, hst, hstack, hmem, hkey, hrnd, hdraws, fun hf => ?_⟩
  rw [tableFault_eq] at hf
  obtain ⟨u, hu, hframed⟩ := exec_framed hf
  obtain rfl := Host.Outcome.next.inj (hu.symm.trans ht)
  exact (congrArg State.fault hframed).trans rfl

/-- Settles O20: `pc` of a `framed` state is `nextPc`, and a fault leaves it. -/
theorem pcIsWrittenOnceByEveryInstruction : Obligations.PcIsWrittenOnceByEveryInstruction := by
  unfold Obligations.PcIsWrittenOnceByEveryInstruction
  intro i s
  rw [tableFault_eq]
  rcases exec_cases i s with ⟨f, hf, ht⟩ | ⟨hf, t, ht, hframed⟩
  · exact ⟨_, ht, fun h => by simp [hf] at h, fun _ => rfl⟩
  · exact ⟨_, ht, fun _ => (congrArg State.pc hframed).trans rfl, fun h => absurd hf h⟩

/-- Settles O28: LD ST overwrites ST, RND and every other instruction see nothing of it. -/
theorem soundTimerIsReadByNoInstruction : Obligations.SoundTimerIsReadByNoInstruction := by
  unfold Obligations.SoundTimerIsReadByNoInstruction
  intro i s b
  by_cases hst : ∃ x, i = .ldStVx x
  · obtain ⟨x, rfl⟩ := hst
    exact ⟨_, _, rfl, rfl, rfl, fun h => absurd rfl (h x)⟩
  by_cases hrnd : ∃ x kk, i = .rnd x kk
  · obtain ⟨x, kk, rfl⟩ := hrnd
    exact ⟨_, _, rfl, rfl, rfl, fun _ => ⟨rfl, rfl⟩⟩
  obtain ⟨t, ht, hu⟩ := exec_overlay b s.rnd s.draws hst hrnd s
  obtain ⟨-, -, -, hsame, -, -, -, hr, hd⟩ := exec_untouched ht
  refine ⟨t, { t with st := b }, ht, ?_, rfl, fun _ => ⟨hsame (writesSt_eq_false hst), rfl⟩⟩
  rw [show ({ t with st := b } : State) = overlay b s.rnd s.draws t by rw [← hr, ← hd]; rfl]
  exact hu

end Sys2Proof.Proofs.Frame
end

section
/-! SUPPORT. The statements on the step (40_step_cycle.md R92 to R100, 60_exceptions.md R210 to R218). The
idea: a step is one of five cases (`StepTo`, `stepOn_stepTo`): halted, one of the three faults, or an executed
instruction; each statement is read off them, the executed case by `exec_framed`. -/

namespace Sys2Proof.Proofs.Step

open Sys2Proof.Machine Sys2Proof.Safety Sys2Proof.Proofs.ControlFlow Sys2Proof.Proofs.Decoding
  Sys2Proof.Proofs.Frame

/-! ### The cases of a step -/

/-- The state an instruction without a fault is executed on (R92 points 1 and 5). -/
def ready (r : Byte) (s : State) : State := (s.clearOut.sample r).tick

/-- The word a running machine fetches with pc ≤ 0xFFE (R94). -/
def fetchedWord (s : State) : Word := Memory.read s.mem s.pc.toNat ++ Memory.read s.mem (s.pc.toNat + 1)

/-- The states a step with the random byte `r` can end in, by the points of R92. -/
inductive StepTo (r : Byte) (s : State) : State → Prop
  | halted (hhalt : ¬Running s) : StepTo r s s.clearOut
  | fetchFault (hrun : Running s) (hpc : 0xFFE < s.pc.toNat) : StepTo r s (faulted .addressOutOfRange s)
  | invalidWord (hrun : Running s) (hpc : s.pc.toNat ≤ 0xFFE) (e : Reject)
      (hdec : decode (fetchedWord s) = .invalid e) : StepTo r s (faulted .invalidOpcode s)
  | instrFault (i : Instr) (f : Fault) (hfetch : Fetches s i) (hf : faultCondition i s = some f) :
      StepTo r s (faulted f s)
  | executed (i : Instr) (t : State) (hfetch : Fetches s i) (hf : faultCondition i s = none)
      (hexec : exec i (ready r s) = .next t) (hframed : t = framed i (ready r s) t) : StepTo r s t

theorem faultCondition_ready (r : Byte) (i : Instr) (s : State) :
    faultCondition i (ready r s) = faultCondition i s :=
  (faultCondition_tick r i s.clearOut).trans (faultCondition_clearOut i s)

theorem stepOn_executed {s : State} {i : Instr} (hfetch : Fetches s i) (hf : faultCondition i s = none)
    (r : Byte) :
    ∃ t, stepOn r s = .next t ∧ exec i (ready r s) = .next t ∧ t = framed i (ready r s) t := by
  obtain ⟨t, ht, hframed⟩ := exec_framed ((faultCondition_ready r i s).trans hf)
  exact ⟨t, (stepOn_of_fetches_none hfetch hf r).trans ht, ht, hframed⟩

theorem stepOn_of_halted {s : State} (hhalt : ¬Running s) (r : Byte) : stepOn r s = .next s.clearOut := by
  cases hf : s.fault with
  | none => exact absurd hf hhalt
  | some f => simp only [stepOn, hf]

theorem stepOn_of_invalid {s : State} (hrun : Running s) (hpc : s.pc.toNat ≤ 0xFFE) {e : Reject}
    (hdec : decode (fetchedWord s) = .invalid e) (r : Byte) :
    stepOn r s = .next (faulted .invalidOpcode s) := by
  have hfault : s.fault = none := hrun
  simp only [fetchedWord] at hdec
  simp only [stepOn, hfault, State.fetch_some hpc, runWord, hdec]
  rfl

theorem stepOn_stepTo (r : Byte) (s : State) : ∃ t, stepOn r s = .next t ∧ StepTo r s t := by
  by_cases hrun : Running s
  · by_cases hpc : s.pc.toNat ≤ 0xFFE
    · cases hdec : decode (fetchedWord s) with
      | invalid e => exact ⟨_, stepOn_of_invalid hrun hpc hdec r, .invalidWord hrun hpc e hdec⟩
      | instr i =>
        have hfetch : Fetches s i := ⟨hrun, hpc, hdec⟩
        cases hf : faultCondition i s with
        | some f => exact ⟨_, stepOn_of_fetches_fault hfetch hf r, .instrFault i f hfetch hf⟩
        | none =>
          obtain ⟨t, hstep, hexec, hframed⟩ := stepOn_executed hfetch hf r
          exact ⟨t, hstep, .executed i t hfetch hf hexec hframed⟩
    · have habove : 0xFFE < s.pc.toNat := Nat.lt_of_not_le hpc
      exact ⟨_, stepOn_of_pc_above hrun habove r, .fetchFault hrun habove⟩
  · exact ⟨_, stepOn_of_halted hrun r, .halted hrun⟩

theorem stepTo_of_stepOn {r : Byte} {s t : State} (h : stepOn r s = .next t) : StepTo r s t := by
  obtain ⟨u, hu, hto⟩ := stepOn_stepTo r s
  obtain rfl := Host.Outcome.next.inj (hu.symm.trans h)
  exact hto

theorem fetches_unique {s : State} {i j : Instr} (hi : Fetches s i) (hj : Fetches s j) : i = j :=
  Decoded.instr.inj (hi.2.2.symm.trans hj.2.2)

/-- What the four cases without an executed instruction have in common, against the executed one. -/
theorem StepTo.executed_or_not {r : Byte} {s t : State} (h : StepTo r s t) :
    (t.fault ≠ none ∧ t.out = Output.none ∧ ∀ i, Fetches s i → faultCondition i s ≠ none) ∨
    ∃ i, Fetches s i ∧ faultCondition i s = none ∧ exec i (ready r s) = .next t ∧
      t = framed i (ready r s) t := by
  cases h with
  | halted hhalt => exact .inl ⟨hhalt, rfl, fun _ hfetch => absurd hfetch.1 hhalt⟩
  | fetchFault hrun hpc =>
    exact .inl ⟨Option.some_ne_none _, rfl, fun _ hfetch => absurd hfetch.2.1 (Nat.not_le_of_lt hpc)⟩
  | invalidWord hrun hpc e hdec =>
    exact .inl ⟨Option.some_ne_none _, rfl, fun _ hfetch => nomatch hdec.symm.trans hfetch.2.2⟩
  | instrFault i f hfetch hf =>
    refine .inl ⟨Option.some_ne_none _, rfl, fun j hj => ?_⟩
    obtain rfl := fetches_unique hj hfetch
    exact hf ▸ Option.some_ne_none f
  | executed i t hfetch hf hexec hframed => exact .inr ⟨i, hfetch, hf, hexec, hframed⟩

theorem running_of_executed {r : Byte} {i : Instr} {s t : State} (hfetch : Fetches s i)
    (hframed : t = framed i (ready r s) t) : t.fault = none :=
  (congrArg State.fault hframed).trans hfetch.1

/-- A step ends running exactly when it executes an instruction. -/
theorem StepTo.running_iff {r : Byte} {s t : State} (h : StepTo r s t) :
    t.fault = none ↔ ∃ i, Fetches s i ∧ faultCondition i s = none := by
  rcases h.executed_or_not with ⟨hfault, -, hnot⟩ | ⟨i, hfetch, hf, -, hframed⟩
  · exact ⟨fun h => absurd h hfault, fun ⟨i, hfetch, hf⟩ => absurd hf (hnot i hfetch)⟩
  · exact ⟨fun _ => ⟨i, hfetch, hf⟩, fun _ => running_of_executed hfetch hframed⟩

/-! ### The latch after a step -/

theorem faultCondition_ne_invalidOpcode (i : Instr) (s : State) :
    faultCondition i s ≠ some .invalidOpcode := by
  have hrange (last : Nat) : rangeFault s last ≠ some .invalidOpcode := by
    unfold rangeFault; split <;> simp
  cases i with
  | call nnn => simp only [faultCondition, callFault]; split <;> simp
  | ret => simp only [faultCondition, retFault]; split <;> simp
  | drw x y n =>
    simp only [faultCondition, drawFault]
    split
    · simp
    · exact hrange _
  | ldB x | ldMemVx x | ldVxMem x => exact hrange _
  | _ => simp [faultCondition]

theorem not_invalidWord_of_fetches {s : State} {i : Instr} (h : Fetches s i) :
    ¬InvalidWord (fetchedWord s) := by
  intro hw
  obtain ⟨e, he⟩ := (decode_invalid_iff _).2 hw
  exact nomatch he.symm.trans h.2.2

theorem stepSafe_iff {s t : State} (h : step s = .next t) : StepSafe s ↔ t.fault = none := by
  unfold StepSafe
  rw [h]
  cases hf : t.fault <;> simp [outcomeOf, hf]

/-! ### The timers after an executed instruction (R96) -/

theorem dt_of_exec {r : Byte} {i : Instr} {s t : State} (h : exec i (ready r s) = .next t) :
    t.dt.toNat = dtAfter i s := by
  have hdt := (exec_untouched h).dt
  cases i with
  | ldDtVx x => obtain rfl := Host.Outcome.next.inj h; rfl
  | _ => rw [hdt rfl]; exact countDown_toNat s.dt

theorem st_of_exec {r : Byte} {i : Instr} {s t : State} (h : exec i (ready r s) = .next t) :
    t.st.toNat = stAfter i s := by
  have hst := (exec_untouched h).st
  cases i with
  | ldStVx x => obtain rfl := Host.Outcome.next.inj h; rfl
  | _ => rw [hst rfl]; exact countDown_toNat s.st

theorem readV_of_exec_ldVxDt {r : Byte} {x : Reg} {s t : State}
    (h : exec (.ldVxDt x) (ready r s) = .next t) : (t.readV x).toNat = s.dt.toNat - 1 := by
  obtain rfl := Host.Outcome.next.inj h
  exact (congrArg BitVec.toNat (State.readV_writeV_same x _ _)).trans (countDown_toNat s.dt)

/-! ### The result after an executed instruction (R98) -/

theorem nextOut_redraw_iff {i : Instr} {s : State} (h : s.out = Output.none) :
    (nextOut i s).redraw = true ↔ i = .cls ∨ ∃ x y n, i = .drw x y n := by
  cases i with
  | cls | drw x y n => simp [nextOut]
  | ldVxK x => simp only [nextOut, h]; split <;> simp [Output.none]
  | _ => simp [nextOut, h, Output.none]

theorem nextOut_await_iff {i : Instr} {s : State} (h : s.out = Output.none) (x : Reg) :
    (nextOut i s).await = some x ↔ i = .ldVxK x ∧ ∀ k : Reg, s.key[k] = false := by
  cases i with
  | ldVxK y =>
    by_cases hex : ∃ k : Reg, s.key[k] = true
    · have hnot : ¬∀ k : Reg, s.key[k] = false := by simpa using hex
      rw [show nextOut (.ldVxK y) s = s.out from if_pos hex, h]
      simp only [Output.none, hnot, and_false, reduceCtorEq]
    · have hall : ∀ k : Reg, s.key[k] = false := by simpa using hex
      rw [show nextOut (.ldVxK y) s = { s.out with await := some y } from if_neg hex]
      simp only [Option.some.injEq, Instr.ldVxK.injEq, and_iff_left hall]
  | _ => simp [nextOut, h, Output.none]

/-! ### Halting (R93, R218) -/

/-- Steps and key events leave a halted state halted, and change its keys and result at most. -/
theorem runEvents_of_halted {es : List Event} {s : State} (hhalt : ¬Running s)
    (hno : ∀ rom, Event.reset rom ∉ es) :
    ∃ t, runEvents es s = .next t ∧ t = { s with key := t.key, out := t.out } := by
  induction es generalizing s with
  | nil => exact ⟨s, rfl, rfl⟩
  | cons e es ih =>
    have hno' : ∀ rom, Event.reset rom ∉ es := fun rom h => hno rom (List.mem_cons_of_mem e h)
    cases e with
    | reset rom => exact absurd List.mem_cons_self (hno rom)
    | step r =>
      obtain ⟨t, ht, heq⟩ := ih (s := s.clearOut) hhalt hno'
      refine ⟨t, ?_, heq⟩
      simp only [runEvents, runEvent, stepOn_of_halted hhalt r, ht]
    | key k p =>
      obtain ⟨t, ht, heq⟩ := ih (s := keyEvent k p s) hhalt hno'
      exact ⟨t, ht, heq⟩

/-! ### The obligations -/

/-- Settles O7: the fault condition decides the case of the step. -/
theorem stepRunsTheDecodedInstruction : Obligations.StepRunsTheDecodedInstruction := by
  unfold Obligations.StepRunsTheDecodedInstruction
  intro s i hfetch
  refine ⟨fun hf => stepOn_of_fetches_none hfetch hf _, fun hf => ?_⟩
  obtain ⟨f, hf⟩ := Option.ne_none_iff_exists'.1 hf
  exact (stepOn_of_fetches_fault hfetch hf _).trans
    (exec_fault ((faultCondition_clearOut i s).trans hf)).symm

/-- Settles O8: a halted step is `clearOut`, which changes nothing in a quiet result. -/
theorem haltedStepChangesNothing : Obligations.HaltedStepChangesNothing := by
  unfold Obligations.HaltedStepChangesNothing
  intro r s hhalt
  refine ⟨⟨_, stepOn_of_halted hhalt r, rfl, rfl, rfl⟩, fun hquiet => ?_⟩
  have hclear : s.clearOut = s := by
    rw [State.clearOut, ← hquiet hhalt]
    rfl
  rw [stepOn_of_halted hhalt r, hclear]

/-- Settles O9, the second case of a step. -/
theorem fetchBeyondMemoryTakesAddressOutOfRange :
    Obligations.FetchBeyondMemoryTakesAddressOutOfRange := by
  unfold Obligations.FetchBeyondMemoryTakesAddressOutOfRange
  exact fun r s hrun hpc => stepOn_of_pc_above hrun hpc r

/-- Settles O10, by the cases of a step: no other case sets the latch to InvalidOpcode. -/
theorem invalidWordTakesInvalidOpcode : Obligations.InvalidWordTakesInvalidOpcode := by
  unfold Obligations.InvalidWordTakesInvalidOpcode
  intro r s hrun
  obtain ⟨t, hstep, hto⟩ := stepOn_stepTo r s
  refine ⟨t, hstep, ?_⟩
  cases hto with
  | halted hhalt => exact absurd hrun hhalt
  | fetchFault _ hpc =>
    exact ⟨⟨nofun, fun h => absurd h.1 (Nat.not_le_of_lt hpc)⟩, nofun⟩
  | invalidWord _ hpc e hdec =>
    exact ⟨⟨fun _ => ⟨hpc, (decode_invalid_iff _).1 ⟨e, hdec⟩⟩, fun _ => rfl⟩, fun _ => rfl⟩
  | instrFault i f hfetch hf =>
    have hne : some f ≠ some .invalidOpcode := hf ▸ faultCondition_ne_invalidOpcode i s
    exact ⟨⟨fun h => absurd h hne, fun h => absurd h.2 (not_invalidWord_of_fetches hfetch)⟩,
      fun h => absurd h hne⟩
  | executed i t hfetch hf hexec hframed =>
    have hne : t.fault ≠ some .invalidOpcode := by simp [running_of_executed hfetch hframed]
    exact ⟨⟨fun h => absurd h hne, fun h => absurd h.2 (not_invalidWord_of_fetches hfetch)⟩,
      fun h => absurd h hne⟩

/-- Settles O11: the table is `faultCondition`, which decides the step's case. -/
theorem faultTableDecidesEveryFault : Obligations.FaultTableDecidesEveryFault := by
  unfold Obligations.FaultTableDecidesEveryFault
  intro r s i hfetch
  rw [tableFault_eq]
  cases hf : faultCondition i s with
  | some f => exact ⟨_, stepOn_of_fetches_fault hfetch hf r, rfl⟩
  | none =>
    obtain ⟨t, hstep, -, hframed⟩ := stepOn_executed hfetch hf r
    exact ⟨t, hstep, running_of_executed hfetch hframed⟩

/-- Settles O12, by the cases of a step. -/
theorem faultingStepsArePrecise : Obligations.FaultingStepsArePrecise := by
  unfold Obligations.FaultingStepsArePrecise
  intro r s t f hrun hstep hfault
  cases stepTo_of_stepOn hstep with
  | halted hhalt => exact absurd hrun hhalt
  | fetchFault | invalidWord | instrFault =>
    obtain rfl := Option.some.inj hfault
    rfl
  | executed i t hfetch hf hexec hframed =>
    exact nomatch hfault.symm.trans (running_of_executed hfetch hframed)

/-- Settles O13: a step is safe exactly when it ends running (`StepTo.running_iff`). -/
theorem stepIsSafeExactlyWhenNothingFaults : Obligations.StepIsSafeExactlyWhenNothingFaults := by
  unfold Obligations.StepIsSafeExactlyWhenNothingFaults
  intro s
  obtain ⟨t, hstep, hto⟩ := stepOn_stepTo (Config.randomByte s.draws) s
  simp only [tableFault_eq]
  exact (stepSafe_iff hstep).trans hto.running_iff

/-- Settles O14, by induction on the trace; a reset starts from `resetState`. -/
theorem nothingButResetLeavesTheHalt : Obligations.NothingButResetLeavesTheHalt := by
  unfold Obligations.NothingButResetLeavesTheHalt
  exact ⟨fun es s hhalt hno => runEvents_of_halted hhalt hno,
    fun rom s hlen => ⟨_, if_pos hlen, rfl, rfl⟩⟩

/-- Settles O15: an executed instruction starts from counters that have ticked, a fault leaves them. -/
theorem timersTickOncePerExecutedStep : Obligations.TimersTickOncePerExecutedStep := by
  unfold Obligations.TimersTickOncePerExecutedStep
  intro r s i hfetch
  rw [tableFault_eq]
  cases hf : faultCondition i s with
  | some f => exact ⟨_, stepOn_of_fetches_fault hfetch hf r, nofun, fun _ => ⟨rfl, rfl⟩⟩
  | none =>
    obtain ⟨t, hstep, hexec, -⟩ := stepOn_executed hfetch hf r
    refine ⟨t, hstep, fun _ => ⟨dt_of_exec hexec, st_of_exec hexec, ?_⟩, fun h => absurd rfl h⟩
    rintro x rfl
    exact readV_of_exec_ldVxDt hexec

/-- Settles O16: only an executed instruction sets the result, and `nextOut` says which. -/
theorem onlyDrawAndClearRequestRedraw : Obligations.OnlyDrawAndClearRequestRedraw := by
  unfold Obligations.OnlyDrawAndClearRequestRedraw
  intro r s
  obtain ⟨t, hstep, hto⟩ := stepOn_stepTo r s
  simp only [tableFault_eq]
  refine ⟨t, hstep, ?_⟩
  rcases hto.executed_or_not with ⟨-, hout, hnot⟩ | ⟨i, hfetch, hf, -, hframed⟩
  · rw [hout]
    exact ⟨⟨nofun, fun ⟨i, hfetch, hf, _⟩ => absurd hf (hnot i hfetch)⟩,
      fun x => ⟨nofun, fun ⟨hfetch, _⟩ => absurd rfl (hnot _ hfetch)⟩⟩
  · rw [show t.out = nextOut i (ready r s) from congrArg State.out hframed]
    constructor
    · rw [nextOut_redraw_iff rfl]
      constructor
      · exact fun h => ⟨i, hfetch, hf, h⟩
      · rintro ⟨j, hj, -, h⟩
        exact fetches_unique hj hfetch ▸ h
    · intro x
      rw [nextOut_await_iff rfl]
      constructor
      · rintro ⟨rfl, hkeys⟩
        exact ⟨hfetch, hkeys⟩
      · exact fun ⟨hx, hkeys⟩ => ⟨fetches_unique hfetch hx, hkeys⟩

/-- Settles O17: every case of a step leaves the keys, and `keyEvent` is one write. -/
theorem keyLatchIsWrittenOnlyByKeyEvents : Obligations.KeyLatchIsWrittenOnlyByKeyEvents := by
  unfold Obligations.KeyLatchIsWrittenOnlyByKeyEvents
  refine ⟨fun r s t hstep => ?_, fun k p s => ⟨?_, fun j hj => ?_, rfl⟩⟩
  · cases stepTo_of_stepOn hstep with
    | executed i t hfetch hf hexec hframed => exact (exec_untouched hexec).key
    | _ => rfl
  · exact (State.key_writeKey k k p s).trans (if_pos rfl)
  · exact (State.key_writeKey k j p s).trans (if_neg hj)

/-- Settles O29: a step that executes nothing does not take the byte, and an executed instruction that is
not RND does not read it (`exec_overlay`). -/
theorem onlyRandomReadsTheRandomInput : Obligations.OnlyRandomReadsTheRandomInput := by
  unfold Obligations.OnlyRandomReadsTheRandomInput
  intro r q s hrnd
  obtain ⟨t, hstep, hto⟩ := stepOn_stepTo r s
  cases hto with
  | halted hhalt => exact ⟨_, _, hstep, stepOn_of_halted hhalt q, rfl⟩
  | fetchFault hrun hpc => exact ⟨_, _, hstep, stepOn_of_pc_above hrun hpc q, rfl⟩
  | invalidWord hrun hpc e hdec => exact ⟨_, _, hstep, stepOn_of_invalid hrun hpc hdec q, rfl⟩
  | instrFault i f hfetch hf => exact ⟨_, _, hstep, stepOn_of_fetches_fault hfetch hf q, rfl⟩
  | executed i t hfetch hf hexec hframed =>
    have hq : stepOn q s = exec i (ready q s) := stepOn_of_fetches_none hfetch hf q
    by_cases hst : ∃ x, i = .ldStVx x
    · obtain ⟨x, rfl⟩ := hst
      obtain rfl := Host.Outcome.next.inj hexec
      exact ⟨_, _, hstep, hq, rfl⟩
    have hnot : ¬∃ x kk, i = .rnd x kk := by
      rintro ⟨x, kk, rfl⟩
      exact hrnd x kk hfetch
    obtain ⟨u, hu, hoverlay⟩ :=
      exec_overlay (ready r s).st q (ready r s).draws hst hnot (ready r s)
    obtain rfl := Host.Outcome.next.inj (hu.symm.trans hexec)
    have huntouched := exec_untouched hexec
    refine ⟨u, _, hstep, hq.trans hoverlay, ?_⟩
    rw [← huntouched.st (writesSt_eq_false hst), ← huntouched.draws]
    rfl

end Sys2Proof.Proofs.Step
end

section
/-! SUPPORT. The statements on the invariant and on the reset (10_state.md R24, R32; 70_reset_and_hazards.md
R240, R241). The idea: a fault and a cleared result leave memory, `pc` and the stack, so only an executed
instruction has to be looked at, and of it only what it writes: memory (`canonical_of_exec`), the stack
(`stack_le_of_exec`) and `pc`, which ends at `nextPc` (`nextPc_le`). -/

namespace Sys2Proof.Proofs.Invariant

open Sys2Proof.Machine Sys2Proof.Safety Sys2Proof.Proofs.ControlFlow Sys2Proof.Proofs.IndexMemory
  Sys2Proof.Proofs.Frame Sys2Proof.Proofs.Step

/-! ### Memory stays canonical -/

theorem canonical_of_exec {i : Instr} {s t : State} (hcan : Canonical s) (hf : faultCondition i s = none)
    (h : exec i s = .next t) : Canonical t := by
  have hmem := (exec_untouched h).mem
  unfold Canonical at hcan ⊢
  cases i with
  | cls =>
    obtain rfl := Host.Outcome.next.inj ((exec_cls s).symm.trans h)
    rw [setMem_requestRedraw_mem]
    exact clearBytes_wf hcan (Nat.le_refl 256)
  | drw x y n =>
    obtain rfl := Host.Outcome.next.inj ((exec_drw x y hf).symm.trans h)
    exact (drawRows_spec _ _ _ hcan n.val).1
  | ldB x =>
    have hrange := rangeFault_none.1 hf
    obtain rfl := Host.Outcome.next.inj ((exec_ldB x hrange).symm.trans h)
    exact Memory.wf_writeList hcan (Nat.succ_le_succ hrange)
  | ldMemVx x =>
    have hrange := rangeFault_none.1 hf
    obtain rfl := Host.Outcome.next.inj ((exec_ldMemVx x hrange).symm.trans h)
    exact storeRegs_wf hcan (Nat.succ_le_succ hrange)
  | _ => rw [hmem rfl]; exact hcan

/-! ### The stack and pc stay bounded -/

/-- Every entry of the call stack is at most 0x1000 (41_control_flow.md R113). -/
def StackBounded (s : State) : Prop := ∀ j : Fin parameters.stackDepth, s.stack[j].toNat ≤ 0x1000

theorem stackBounded_of_exec {i : Instr} {s t : State} (hstack : StackBounded s)
    (hpc : s.pc.toNat ≤ 0xFFE) (hf : faultCondition i s = none) (h : exec i s = .next t) :
    StackBounded t := by
  have hsame := (exec_untouched h).stack
  cases i with
  | call nnn =>
    obtain rfl := Host.Outcome.next.inj ((exec_call nnn (callFault_none.1 hf)).symm.trans h)
    intro j
    rw [State.setPc_stack, State.push_stack]
    split
    · bv_omega
    · exact hstack j
  | ret =>
    obtain rfl := Host.Outcome.next.inj ((exec_ret (retFault_none.1 hf)).symm.trans h)
    exact hstack
  | _ => intro j; rw [(hsame rfl).1]; exact hstack j

/-- With a live entry, the address a RET pops is an entry of the stack. -/
theorem top_le {s : State} (hstack : StackBounded s) (hsp : s.sp.val ≠ 0) : s.top.toNat ≤ 0x1000 := by
  have hle := stackPointer_le s.sp
  have hlt : s.sp.val - 1 < 16 := by omega
  rw [State.top_eq ⟨s.sp.val - 1, hlt⟩ (by dsimp only; omega)]
  exact hstack _

theorem zextByte_toNat (b : Byte) : (zextByte b).toNat = b.toNat :=
  BitVec.toNat_setWidth_of_le (by decide)

theorem jumpV0Target_toNat (s : State) (nnn : Addr12) :
    (jumpV0Target s nnn).toNat = (s.readV 0).toNat + nnn.toNat := by
  have hv := (s.readV 0).isLt
  have hn := nnn.isLt
  rw [jumpV0Target, BitVec.toNat_add, zextNNN_toNat, zextByte_toNat]
  omega

theorem nextPc_le {i : Instr} {s : State} (hstack : StackBounded s) (hpc : s.pc.toNat ≤ 0xFFE)
    (hf : faultCondition i s = none) : (nextPc i s).toNat ≤ 0x10FE := by
  have h2 : (s.pc + 2#16).toNat ≤ 0x10FE := by bv_omega
  have h4 : (s.pc + 4#16).toNat ≤ 0x10FE := by bv_omega
  cases i with
  | jp nnn | call nnn => exact (zextNNN_toNat nnn).trans_le (by omega)
  | ret =>
    have htop : (nextPc .ret s).toNat ≤ 0x1000 := top_le hstack (retFault_none.1 hf)
    omega
  | jpV0 nnn =>
    have hj : (nextPc (.jpV0 nnn) s).toNat = _ := jumpV0Target_toNat s nnn
    omega
  | seImm x kk | sneImm x kk | seReg x y | sneReg x y | skp x | sknp x =>
    simp only [nextPc]
    split <;> assumption
  | ldVxK x =>
    simp only [nextPc]
    split
    · exact h2
    · omega
  | _ => exact h2

/-! ### The invariant along steps and events -/

theorem inv_faulted {s : State} (f : Fault) (h : Inv s) : Inv (faulted f s) :=
  ⟨h.canonical, h.bounded, fun _ => rfl⟩

theorem inv_of_stepTo {r : Byte} {s t : State} (h : Inv s) (hto : StepTo r s t) : Inv t := by
  cases hto with
  | halted => exact ⟨h.canonical, h.bounded, fun _ => rfl⟩
  | fetchFault | invalidWord | instrFault => exact inv_faulted _ h
  | executed i t hfetch hf hexec hframed =>
    have hready : faultCondition i (ready r s) = none := (faultCondition_ready r i s).trans hf
    have hstack : StackBounded (ready r s) := h.bounded.2
    have hpc : t.pc = nextPc i (ready r s) := congrArg State.pc hframed
    exact ⟨canonical_of_exec (s := ready r s) h.canonical hready hexec,
      ⟨hpc ▸ nextPc_le hstack hfetch.2.1 hready, stackBounded_of_exec hstack hfetch.2.1 hready hexec⟩,
      fun hfault => absurd (running_of_executed hfetch hframed) hfault⟩

theorem inv_reset : Inv State.reset :=
  ⟨Memory.wf_nil, ⟨by decide, by decide⟩, fun h => absurd rfl h⟩

theorem inv_resetState {rom : List Byte} (hlen : rom.length ≤ maxRom) (n : Nat) :
    Inv ((resetState rom).setRnd 0#8 n) := by
  have hfit : parameters.progBase + rom.length ≤ 0x1000 := by
    unfold maxRom at hlen
    rw [parameters_progBase] at *
    omega
  exact ⟨Memory.wf_writeList Memory.wf_nil hfit, inv_reset.bounded, inv_reset.quiet⟩

theorem inv_of_runEvent {e : Event} {s t : State} (h : Inv s) (hrun : runEvent e s = .next t) : Inv t := by
  cases e with
  | reset rom =>
    simp only [runEvent, resetWith] at hrun
    split at hrun
    · next hlen =>
      obtain rfl := Host.Outcome.next.inj hrun
      exact inv_resetState hlen s.draws
    · exact nomatch hrun
  | step r => exact inv_of_stepTo h (stepTo_of_stepOn hrun)
  | key k p =>
    obtain rfl := Host.Outcome.next.inj hrun
    exact ⟨h.canonical, h.bounded, h.quiet⟩

theorem inv_of_runEvents {es : List Event} {s t : State} (h : Inv s) (hrun : runEvents es s = .next t) :
    Inv t := by
  induction es generalizing s with
  | nil =>
    obtain rfl := Host.Outcome.next.inj hrun
    exact h
  | cons e es ih =>
    cases he : runEvent e s with
    | next u =>
      simp only [runEvents, he] at hrun
      exact ih (inv_of_runEvent h he) hrun
    | fault f => simp [runEvents, he] at hrun
    | refused q => simp [runEvents, he] at hrun

/-! ### Memory after a reset (R32, R240) -/

theorem read_resetState {rom : List Byte} (hlen : rom.length ≤ 3584) (a : Nat) :
    Memory.read (resetState rom).mem a =
      if 0x200 ≤ a ∧ a < 0x200 + rom.length then rom.getD (a - 0x200) 0#8 else fontBytes.getD a 0#8 := by
  have hfit : parameters.progBase + rom.length ≤ 0x1000 := by rw [parameters_progBase]; omega
  exact Memory.read_writeList Memory.wf_nil hfit a

/-! ### The obligations -/

/-- Settles O21, by the cases of a step. -/
theorem invariantKeptByEveryStep : Obligations.InvariantKeptByEveryStep := by
  unfold Obligations.InvariantKeptByEveryStep
  exact fun s t h hstep => inv_of_stepTo h (stepTo_of_stepOn hstep)

/-- Settles O22, by induction on the trace. -/
theorem invariantKeptByEveryEvent : Obligations.InvariantKeptByEveryEvent := by
  unfold Obligations.InvariantKeptByEveryEvent
  exact fun es s t h hrun => inv_of_runEvents h hrun

/-- Settles O23, on the fields of State.reset. -/
theorem resetMeetsTheInvariant : Obligations.ResetMeetsTheInvariant := by
  unfold Obligations.ResetMeetsTheInvariant
  exact ⟨inv_reset, rfl⟩

/-- Settles O24: the fields are those of State.reset, memory is `read_resetState`. -/
theorem resetLoadsTheRomOrRefuses : Obligations.ResetLoadsTheRomOrRefuses := by
  unfold Obligations.ResetLoadsTheRomOrRefuses
  refine ⟨rfl, fun rom s => ⟨fun hlen => ?_, fun hlen => if_neg (Nat.not_le_of_lt hlen)⟩⟩
  have hread := read_resetState hlen
  refine ⟨(resetState rom).setRnd 0#8 s.draws, if_pos hlen, fun x => ?_, rfl, rfl, rfl, rfl, rfl,
    fun j => ?_, fun k => ?_, rfl, fun a ha => ?_, fun a hlo hhi => ?_, fun a hlo hhi => ?_⟩
  · simp [State.readV, resetState, State.reset]
  · simp [resetState, State.reset]
  · simp [resetState, State.reset]
  · exact (hread a).trans (if_neg (by omega))
  · exact ((hread a).trans (if_neg (by omega))).trans (Memory.background_above hlo)
  · refine (hread a).trans ?_
    split
    · rfl
    · next hout =>
      have hpast : rom.length ≤ a - 0x200 := by omega
      rw [List.getD_eq_default _ _ hpast]
      exact Memory.background_above (by omega)

end Sys2Proof.Proofs.Invariant
end

section
/-! SUPPORT. The statements on the display (44_draw.md R170 to R177). The idea: a row is an XOR with the set
of pixels `rowHits`. The rows of a sprite lie on different pixels (`rowHits_disjoint`), so a sprite whose
bytes no row overwrites is one XOR with `spriteHits`, and drawing it twice is no change (`drawRows_pixel`).
Grouped by bytes, a row is an XOR with `rowByte`, which is zero but for two bytes
(`rowHits_eq_rowByte`). -/

namespace Sys2Proof.Proofs.Display

open Sys2Proof.Machine Sys2Proof.Safety Sys2Proof.Proofs.ControlFlow Sys2Proof.Proofs.Frame

/-! ### The states after a draw and after CLS -/

theorem flagByte_eq_one_iff {f : Bool} : flagByte f = 1#8 ↔ f = true := by cases f <;> decide

theorem flagByte_zero_or_one (f : Bool) : flagByte f = 0#8 ∨ flagByte f = 1#8 := by
  cases f
  · exact .inl rfl
  · exact .inr rfl

theorem readV_afterDraw_flag (mc : Memory × Bool) (s : State) :
    (s.afterDraw mc).readV 15 = flagByte mc.2 := State.readV_writeV_same 15 _ _

theorem sameVBut_afterDraw (mc : Memory × Bool) (s : State) : SameVBut 15 s (s.afterDraw mc) :=
  fun _ hr => State.readV_writeV_ne (flagByte mc.2) (s.setMem mc.1) hr

theorem setMem_requestRedraw_frame (m : Memory) (s : State) :
    let t := (s.setMem m).requestRedraw.advance
    SameV s t ∧ t.i = s.i ∧ SameStack s t ∧ SameTimers s t ∧ SameHost s t ∧
      t.out = { s.out with redraw := true } ∧ t.pc = s.pc + 2#16 :=
  ⟨fun _ => rfl, rfl, ⟨rfl, rfl⟩, ⟨rfl, rfl⟩, ⟨rfl, rfl, rfl, rfl⟩, rfl, rfl⟩

/-! ### The memories a sprite goes through (R171, R175) -/

theorem rowDrawn_drawRows (addr x0 y0 : Nat) {m : Memory} (h : Memory.wf m = true) (k : Nat) :
    RowDrawn addr x0 y0 k (drawRows addr x0 y0 m k).1 (drawRows addr x0 y0 m (k + 1)).1 := by
  obtain ⟨-, hout, hpix, -⟩ := drawRows_spec addr x0 y0 h (k + 1)
  have hpix := hpix k (Nat.lt_succ_self k)
  have hhit := rowHits_iff x0 y0 k (Memory.read (drawRows addr x0 y0 m k).1 (addr + k)) 8
  refine ⟨fun p _ => ⟨fun hp => ?_, fun hp => ?_⟩, fun a ha => ?_⟩
  · rw [hpix, (hhit p).2 hp, Bool.xor_true]
  · rw [hpix, Bool.eq_false_iff.2 fun hhits => hp ((hhit p).1 hhits), Bool.xor_false]
  · rw [hout a ha, (drawRows_spec addr x0 y0 h k).2.1 a ha]

/-- Memory after the first `k` rows of the sprite that DRW Vx, Vy draws. -/
def spriteRows (x y : Reg) (s : State) (k : Nat) : Memory :=
  (drawRows s.i.toNat (anchorX (s.readV x)) (anchorY (s.readV y)) s.mem k).1

theorem rowsDrawn_spriteRows (x y n : Reg) {s : State} (h : Canonical s) :
    RowsDrawn x y n s (spriteRows x y s) :=
  ⟨rfl, fun k _ => rowDrawn_drawRows _ _ _ h k⟩

theorem drawSprite_mem (x y n : Reg) (s : State) : (drawSprite x y n s).1 = spriteRows x y s n.val := rfl

theorem drawSprite_collides (x y n : Reg) {s : State} (h : Canonical s) :
    (drawSprite x y n s).2 = true ↔ Collides x y n s (spriteRows x y s) := by
  obtain ⟨-, -, -, hcol⟩ := drawRows_spec s.i.toNat (anchorX (s.readV x)) (anchorY (s.readV y)) h n.val
  refine hcol.trans ⟨?_, ?_⟩
  · rintro ⟨r, hr, c, hc, hbit, hpix⟩
    exact ⟨r, c, hr, hc, hbit, hpix⟩
  · rintro ⟨r, c, hr, hc, hbit, hpix⟩
    exact ⟨r, hr, c, hc, hbit, hpix⟩

theorem sameMemOutside_afterDraw (x y n : Reg) {s : State} (h : Canonical s) :
    SameMemOutside parameters.fbBase 256 s (s.afterDraw (drawSprite x y n s)) :=
  (drawRows_spec s.i.toNat (anchorX (s.readV x)) (anchorY (s.readV y)) h n.val).2.1

/-- VF after a draw is 1 exactly on a collision (R174). -/
theorem readV_afterDraw_eq_one_iff (x y n : Reg) {s : State} (h : Canonical s) :
    (s.afterDraw (drawSprite x y n s)).readV 15 = 1#8 ↔ Collides x y n s (spriteRows x y s) := by
  rw [readV_afterDraw_flag, flagByte_eq_one_iff, drawSprite_collides x y n h]

/-! ### A sprite as one XOR (R177) -/

section
variable {x0 y0 : Nat}

/-- Two rows of a sprite lie on different pixels: 32 rows of 64 fill the framebuffer. -/
theorem rowHits_disjoint {r q p : Nat} {b d : Byte} (hr : r < 32) (hq : q < 32)
    (h : rowHits x0 y0 r b 8 p = true) (h' : rowHits x0 y0 q d 8 p = true) : r = q := by
  obtain ⟨c, hc, -, rfl⟩ := (rowHits_iff _ _ _ _ _ _).1 h
  obtain ⟨e, he, -, hpe⟩ := (rowHits_iff _ _ _ _ _ _).1 h'
  simp only [pixelIndex_eq] at hpe
  omega

/-- The pixels that the set bits of the first `k` rows lie on, for rows with the bytes `bs`. -/
def spriteHits (x0 y0 : Nat) (bs : Nat → Byte) (k p : Nat) : Bool :=
  (List.range k).any fun r => rowHits x0 y0 r (bs r) 8 p

theorem spriteHits_iff (bs : Nat → Byte) (k p : Nat) :
    spriteHits x0 y0 bs k p = true ↔ ∃ r < k, rowHits x0 y0 r (bs r) 8 p = true := by
  simp [spriteHits]

theorem spriteHits_succ (bs : Nat → Byte) (k p : Nat) :
    spriteHits x0 y0 bs (k + 1) p = (spriteHits x0 y0 bs k p || rowHits x0 y0 k (bs k) 8 p) := by
  simp [spriteHits, List.range_succ, List.any_append]

theorem spriteHits_fresh {bs : Nat → Byte} {k p : Nat} (hk : k < 32)
    (h : rowHits x0 y0 k (bs k) 8 p = true) : spriteHits x0 y0 bs k p = false := by
  rw [Bool.eq_false_iff, Ne, spriteHits_iff]
  rintro ⟨r, hr, hrow⟩
  exact absurd (rowHits_disjoint (by omega) hk hrow h) (by omega)

theorem lt_of_spriteHits {bs : Nat → Byte} {k p : Nat} (h : spriteHits x0 y0 bs k p = true) : p < 2048 := by
  obtain ⟨r, -, hrow⟩ := (spriteHits_iff bs k p).1 h
  obtain ⟨c, -, -, rfl⟩ := (rowHits_iff _ _ _ _ _ _).1 hrow
  exact pixelIndex_lt x0 y0 r c

/-- The `n` bytes from `addr` lie outside the framebuffer. -/
def OutsideFb (addr n : Nat) : Prop := addr + n ≤ parameters.fbBase ∨ parameters.fbBase + 256 ≤ addr

variable {addr n : Nat} {m : Memory} {bs : Nat → Byte} (h : Memory.wf m = true) (hout : OutsideFb addr n)
  (hbs : ∀ r < n, Memory.read m (addr + r) = bs r)
include h hout hbs

/-- No row overwrites a byte of such a sprite. -/
theorem read_drawRows_sprite {r : Nat} (hr : r < n) (k : Nat) :
    Memory.read (drawRows addr x0 y0 m k).1 (addr + r) = bs r := by
  unfold OutsideFb at hout
  rw [(drawRows_spec addr x0 y0 h k).2.1 _ (by omega), hbs r hr]

theorem drawRows_pixel {k : Nat} (hk : k ≤ n) (hn : n ≤ 32) (p : Nat) :
    pixel (drawRows addr x0 y0 m k).1 p = (pixel m p ^^ spriteHits x0 y0 bs k p) := by
  induction k with
  | zero => simp [drawRows, spriteHits]
  | succ k ih =>
    rw [(drawRows_spec addr x0 y0 h (k + 1)).2.2.1 k (by omega) p,
      read_drawRows_sprite h hout hbs (by omega), ih (by omega), Bool.xor_assoc, spriteHits_succ]
    congr 1
    cases hrow : rowHits x0 y0 k (bs k) 8 p with
    | false => simp
    | true => simp [spriteHits_fresh (show k < 32 by omega) hrow]

/-- Such a draw collides exactly where the sprite meets the memory before it. -/
theorem drawRows_collides (hn : n ≤ 32) :
    (drawRows addr x0 y0 m n).2 = true ↔ ∃ p, spriteHits x0 y0 bs n p = true ∧ pixel m p = true := by
  rw [(drawRows_spec addr x0 y0 h n).2.2.2]
  constructor
  · rintro ⟨r, hr, c, hc, hbit, hpix⟩
    rw [read_drawRows_sprite h hout hbs hr] at hbit
    have hrow := (rowHits_iff x0 y0 r (bs r) 8 _).2 ⟨c, hc, hbit, rfl⟩
    rw [drawRows_pixel h hout hbs hr.le hn, spriteHits_fresh (by omega) hrow, Bool.xor_false] at hpix
    exact ⟨_, (spriteHits_iff bs n _).2 ⟨r, hr, hrow⟩, hpix⟩
  · rintro ⟨p, hhits, hpix⟩
    obtain ⟨r, hr, hrow⟩ := (spriteHits_iff bs n p).1 hhits
    obtain ⟨c, hc, hbit, rfl⟩ := (rowHits_iff x0 y0 r (bs r) 8 p).1 hrow
    refine ⟨r, hr, c, hc, ?_, ?_⟩
    · rwa [read_drawRows_sprite h hout hbs hr]
    · rwa [drawRows_pixel h hout hbs hr.le hn, spriteHits_fresh (by omega) hrow, Bool.xor_false]

/-- Drawing such a sprite a second time undoes the first draw. -/
theorem read_drawRows_twice (hn : n ≤ 32) (a : Nat) :
    Memory.read (drawRows addr x0 y0 (drawRows addr x0 y0 m n).1 n).1 a = Memory.read m a := by
  obtain ⟨hwf, hfirst, -, -⟩ := drawRows_spec addr x0 y0 h n
  by_cases ha : a < parameters.fbBase ∨ parameters.fbBase + 256 ≤ a
  · rw [(drawRows_spec addr x0 y0 hwf n).2.1 a ha, hfirst a ha]
  · have hbs' : ∀ r < n, Memory.read (drawRows addr x0 y0 m n).1 (addr + r) = bs r :=
      fun r hr => read_drawRows_sprite h hout hbs hr n
    refine pixel_ext (by omega) fun p _ => ?_
    rw [drawRows_pixel hwf hout hbs' le_rfl hn, drawRows_pixel h hout hbs le_rfl hn, Bool.xor_assoc,
      Bool.xor_self, Bool.xor_false]

/-- The second draw collides exactly where the first lit a pixel. -/
theorem drawRows_twice_collides (hn : n ≤ 32) :
    (drawRows addr x0 y0 (drawRows addr x0 y0 m n).1 n).2 = true ↔
      ∃ p, p < 2048 ∧ pixel m p = false ∧ pixel (drawRows addr x0 y0 m n).1 p = true := by
  have hwf := (drawRows_spec addr x0 y0 h n).1
  have hpix := drawRows_pixel h hout hbs (x0 := x0) (y0 := y0) le_rfl hn
  rw [drawRows_collides hwf hout (fun r hr => read_drawRows_sprite h hout hbs hr n) hn]
  constructor
  · rintro ⟨p, hhits, hlit⟩
    rw [hpix, hhits] at hlit
    refine ⟨p, lt_of_spriteHits hhits, by simpa using hlit, ?_⟩
    rw [hpix, hhits, hlit]
  · rintro ⟨p, -, hoff, hlit⟩
    refine ⟨p, ?_, hlit⟩
    rwa [hpix, hoff, Bool.false_xor] at hlit

end

/-! ### A row as an XOR of bytes (R173) -/

/-- Framebuffer byte `k` turned over by sprite row `r`: the high part of `b` in the byte of the row's first
pixel, the low part in the byte after it, which follows the last byte by the first. -/
def rowByte (x0 y0 r : Nat) (b : Byte) (k : Nat) : Byte :=
  let first := ((y0 + r) * 64 + x0) % 2048 / 8
  if k = first then b >>> (x0 % 8) else if k = (first + 1) % 256 then b <<< (8 - x0 % 8) else 0#8

theorem rowHits_eq_rowByte (x0 y0 r : Nat) (b : Byte) {k i : Nat} (hk : k < 256) (hi : i < 8) :
    rowHits x0 y0 r b 8 (8 * k + (7 - i)) = (rowByte x0 y0 r b k).getLsbD i := by
  rw [Bool.eq_iff_iff, rowHits_iff]
  simp only [pixelIndex_eq, spriteBit, rowByte]
  split
  · next hfirst =>
    rw [BitVec.getLsbD_ushiftRight]
    constructor
    · rintro ⟨c, hc, hbit, hp⟩
      rwa [show x0 % 8 + i = 7 - c by omega]
    · intro hbit
      have hlt := BitVec.lt_of_getLsbD hbit
      refine ⟨7 - (x0 % 8 + i), by omega, ?_, by omega⟩
      rwa [show 7 - (7 - (x0 % 8 + i)) = x0 % 8 + i by omega]
  · split
    · next hfirst hnext =>
      simp only [BitVec.getLsbD_shiftLeft, Bool.and_eq_true, Bool.not_eq_true', decide_eq_true_eq,
        decide_eq_false_iff_not]
      constructor
      · rintro ⟨c, hc, hbit, hp⟩
        refine ⟨⟨hi, by omega⟩, ?_⟩
        rwa [show i - (8 - x0 % 8) = 7 - c by omega]
      · rintro ⟨⟨-, hge⟩, hbit⟩
        refine ⟨7 - (i - (8 - x0 % 8)), by omega, ?_, by omega⟩
        rwa [show 7 - (7 - (i - (8 - x0 % 8))) = i - (8 - x0 % 8) by omega]
    · next hfirst hnext =>
      simp only [BitVec.getLsbD_zero, Bool.false_eq_true, iff_false]
      rintro ⟨c, hc, -, hp⟩
      omega

theorem pixel_eq_getLsbD (m : Memory) (k : Nat) {i : Nat} (hi : i < 8) :
    pixel m (8 * k + (7 - i)) = (Memory.read m (parameters.fbBase + k)).getLsbD i := by
  have haddr : pixelAddr (8 * k + (7 - i)) = parameters.fbBase + k := by unfold pixelAddr; omega
  have hbit : pixelBit (8 * k + (7 - i)) = i := by unfold pixelBit; omega
  rw [pixel, haddr, hbit]

theorem and_ne_zero_iff (a b : Byte) :
    a &&& b ≠ 0#8 ↔ ∃ i < 8, a.getLsbD i = true ∧ b.getLsbD i = true := by
  constructor
  · intro hne
    by_contra hno
    refine hne (BitVec.eq_of_getLsbD_eq fun i hi => ?_)
    rw [BitVec.getLsbD_and, BitVec.getLsbD_zero, Bool.eq_false_iff, Ne, Bool.and_eq_true]
    exact fun h => hno ⟨i, hi, h⟩
  · rintro ⟨i, -, ha, hb⟩ hzero
    have hbit := congrArg (·.getLsbD i) hzero
    simp [ha, hb] at hbit

section
variable {m : Memory} (h : Memory.wf m = true) (x0 y0 r : Nat) (b : Byte)
include h

theorem read_drawPixels {k : Nat} (hk : k < 256) :
    Memory.read (drawPixels x0 y0 r b 8 (m, false)).1 (parameters.fbBase + k) =
      Memory.read m (parameters.fbBase + k) ^^^ rowByte x0 y0 r b k := by
  obtain ⟨-, hpix, -, -⟩ :=
    drawPixels_spec (x0 := x0) (y0 := y0) (r := r) (b := b) (mc := (m, false)) h le_rfl
  refine BitVec.eq_of_getLsbD_eq fun i hi => ?_
  rw [← pixel_eq_getLsbD _ k hi, hpix, BitVec.getLsbD_xor, ← pixel_eq_getLsbD m k hi,
    rowHits_eq_rowByte x0 y0 r b hk hi]

theorem drawPixels_collides :
    (drawPixels x0 y0 r b 8 (m, false)).2 = true ↔
      ∃ k < 256, Memory.read m (parameters.fbBase + k) &&& rowByte x0 y0 r b k ≠ 0#8 := by
  obtain ⟨-, -, -, hcol⟩ :=
    drawPixels_spec (x0 := x0) (y0 := y0) (r := r) (b := b) (mc := (m, false)) h le_rfl
  rw [hcol]
  simp only [Bool.false_eq_true, false_or, and_ne_zero_iff]
  constructor
  · rintro ⟨c, hc, hbit, hpix⟩
    have hlt := pixelIndex_lt x0 y0 r c
    have hi : 7 - pixelIndex x0 y0 r c % 8 < 8 := by omega
    have hsplit : 8 * (pixelIndex x0 y0 r c / 8) + (7 - (7 - pixelIndex x0 y0 r c % 8)) =
        pixelIndex x0 y0 r c := by omega
    refine ⟨pixelIndex x0 y0 r c / 8, by omega, 7 - pixelIndex x0 y0 r c % 8, hi, ?_, ?_⟩
    · rwa [← pixel_eq_getLsbD _ _ hi, hsplit]
    · rw [← rowHits_eq_rowByte x0 y0 r b (by omega) hi, hsplit]
      exact (rowHits_iff _ _ _ _ _ _).2 ⟨c, hc, hbit, rfl⟩
  · rintro ⟨k, hk, i, hi, hread, hbyte⟩
    rw [← rowHits_eq_rowByte x0 y0 r b hk hi] at hbyte
    obtain ⟨c, hc, hbit, hp⟩ := (rowHits_iff _ _ _ _ _ _).1 hbyte
    refine ⟨c, hc, hbit, ?_⟩
    rwa [← hp, pixel_eq_getLsbD m k hi]

end

/-! ### The obligations -/

/-- Settles O54: the range check decides between the rows of `spriteRows` and the fault. -/
theorem drawXorsTheSpriteRowByRowOrFaults : Obligations.DrawXorsTheSpriteRowByRowOrFaults := by
  unfold Obligations.DrawXorsTheSpriteRowByRowOrFaults
  intro x y n s
  refine ⟨decode_encode (i := .drw x y n) rfl, fun hcan hrange => ?_,
    fun hn hgt => exec_fault (i := .drw x y n) (drawFault_some hn hgt)⟩
  have hzeroOne : (s.afterDraw (drawSprite x y n s)).readV 15 = 0#8 ∨
      (s.afterDraw (drawSprite x y n s)).readV 15 = 1#8 := by
    rw [readV_afterDraw_flag]
    exact flagByte_zero_or_one _
  exact ⟨_, spriteRows x y s, exec_drw x y (drawFault_none.2 hrange), rowsDrawn_spriteRows x y n hcan,
    drawSprite_mem x y n s, hzeroOne, readV_afterDraw_eq_one_iff x y n hcan,
    sameMemOutside_afterDraw x y n hcan, sameVBut_afterDraw _ s, rfl, ⟨rfl, rfl⟩, ⟨rfl, rfl⟩,
    ⟨rfl, rfl, rfl, rfl⟩, rfl, rfl⟩

/-- Settles O26: the two draws are `drawRows` of one anchor and one sprite. -/
theorem drawingTwiceRestoresTheFramebuffer : Obligations.DrawingTwiceRestoresTheFramebuffer := by
  unfold Obligations.DrawingTwiceRestoresTheFramebuffer
  intro x y n s hcan hrange hout
  have hn : n.val ≤ 32 := by omega
  refine ⟨_, exec_drw x y (drawFault_none.2 (by omega)), fun u hmem hi hx hy => ?_⟩
  have hu : drawSprite x y n u =
      drawRows s.i.toNat (anchorX (s.readV x)) (anchorY (s.readV y)) (drawSprite x y n s).1 n.val := by
    rw [drawSprite, State.ea, hmem, hi, hx, hy]
    rfl
  refine ⟨_, exec_drw x y (drawFault_none.2 (by rw [hi]; omega)), fun a => ?_, ?_⟩
  · rw [hu]
    exact read_drawRows_twice hcan hout (fun _ _ => rfl) hn a
  · rw [readV_afterDraw_flag, flagByte_eq_one_iff, hu]
    exact drawRows_twice_collides hcan hout (fun _ _ => rfl) hn

/-- Settles O27: `rowByte` at the two bytes, and at every other. -/
theorem drawRowIsATwoByteXor : Obligations.DrawRowIsATwoByteXor := by
  unfold Obligations.DrawRowIsATwoByteXor
  intro m x0 y0 r b hwf hx hy hr B sh a1 a2
  have hB : B < 256 := by omega
  have hB' : (B + 1) % 256 < 256 := Nat.mod_lt _ (by omega)
  have hne : (B + 1) % 256 ≠ B := by omega
  have hfirst : rowByte x0 y0 r b B = b >>> sh := if_pos rfl
  have hnext : rowByte x0 y0 r b ((B + 1) % 256) = b <<< (8 - sh) := (if_neg hne).trans (if_pos rfl)
  have hother {k : Nat} (h1 : k ≠ B) (h2 : k ≠ (B + 1) % 256) : rowByte x0 y0 r b k = 0#8 :=
    (if_neg h1).trans (if_neg h2)
  refine ⟨hfirst ▸ read_drawPixels hwf x0 y0 r b hB, hnext ▸ read_drawPixels hwf x0 y0 r b hB',
    fun a h1 h2 => ?_, ?_⟩
  · by_cases ha : a < parameters.fbBase ∨ parameters.fbBase + 256 ≤ a
    · exact (drawPixels_spec (mc := (m, false)) hwf le_rfl).2.2.1 a ha
    · obtain ⟨k, rfl⟩ : ∃ k, a = parameters.fbBase + k := ⟨a - parameters.fbBase, by omega⟩
      rw [read_drawPixels hwf x0 y0 r b (by omega), hother (fun h => h1 (by rw [h]))
        (fun h => h2 (by rw [h])), BitVec.xor_zero]
  · rw [drawPixels_collides hwf]
    constructor
    · rintro ⟨k, hk, hcol⟩
      by_cases h1 : k = B
      · left; rwa [h1, hfirst] at hcol
      by_cases h2 : k = (B + 1) % 256
      · right; rwa [h2, hnext] at hcol
      exact absurd (by rw [hother h1 h2, BitVec.and_zero]) hcol
    · rintro (hcol | hcol)
      · exact ⟨B, hB, hfirst ▸ hcol⟩
      · exact ⟨(B + 1) % 256, hB', hnext ▸ hcol⟩

/-- Settles O53: CLS is `clearBytes` of all 256 bytes. -/
theorem clearScreenZeroesOnlyTheFramebuffer : Obligations.ClearScreenZeroesOnlyTheFramebuffer := by
  unfold Obligations.ClearScreenZeroesOnlyTheFramebuffer
  refine ⟨rfl, fun s hcan => ?_⟩
  have hread := clearBytes_read hcan (Nat.le_refl 256)
  refine ⟨_, exec_cls s, fun j hj => ?_, fun a ha => ?_, setMem_requestRedraw_frame _ s⟩
  · rw [setMem_requestRedraw_mem]
    exact (hread _).trans (if_pos (by omega))
  · rw [setMem_requestRedraw_mem]
    exact (hread a).trans (if_neg (by omega))

end Sys2Proof.Proofs.Display
end

section
/-! SUPPORT. The statements left on single instructions: VF (10_state.md R22), CALL with RET and JP V0
(41_control_flow.md R111, R113, R118), `I` (43_index_memory.md R151, R152), timers and keys
(45_timers_keys.md R190 to R197). Each follows from the lemma about the form its instruction ends in:
`finish`, `finishFlagged`, `skipIf`, `setPc`, `setI`, or the two answers of LD Vx, K. -/

namespace Sys2Proof.Proofs.SingleInstructions

open Sys2Proof.Machine Sys2Proof.Safety Sys2Proof.Proofs.ControlFlow Sys2Proof.Proofs.Alu
  Sys2Proof.Proofs.IndexMemory Sys2Proof.Proofs.Frame Sys2Proof.Proofs.Invariant Sys2Proof.Proofs.Display

/-! ### VF (R22) -/

theorem readV_of_flagOf {i : Instr} {s t : State} {f : Bool} (hflag : flagOf i s = some f)
    (h : exec i s = .next t) : t.readV 15 = flagByte f := by
  cases i with
  | addReg x y | subReg x y | shr x y | subnReg x y | shl x y =>
    obtain rfl := Option.some.inj hflag
    obtain rfl := Host.Outcome.next.inj h
    exact readV_finishFlagged_flag x _ _ s
  | _ => exact nomatch hflag

theorem ne_of_namesVF {x : Reg} (h : decide (x.val = 15) = false) : (15 : Reg) ≠ x := by
  rintro rfl
  exact absurd h (by decide)

/-- An instruction that neither writes a flag nor names VF leaves VF. -/
theorem readV_of_not_namesVF {i : Instr} {s t : State} (hf : faultCondition i s = none)
    (hflag : flagOf i s = none) (hdraw : isDraw i = false) (hnames : namesVF i = false)
    (h : exec i s = .next t) : t.readV 15 = s.readV 15 := by
  have hv := (exec_untouched h).v
  cases i with
  | ldImm x kk | addImm x kk | rnd x kk | ldReg x y | orReg x y | andReg x y | xorReg x y | ldVxDt x =>
    obtain rfl := Host.Outcome.next.inj h
    exact sameVBut_finish x _ s 15 (ne_of_namesVF hnames)
  | addReg x y | subReg x y | shr x y | subnReg x y | shl x y => exact nomatch hflag
  | drw x y n => exact nomatch hdraw
  | ldVxK x =>
    cases hk : lowestPressed s.key with
    | none =>
      obtain rfl := Host.Outcome.next.inj ((exec_ldVxK_none x (lowestPressed_none.1 hk)).symm.trans h)
      rfl
    | some k =>
      obtain ⟨hpressed, hlow⟩ := lowestPressed_some.1 hk
      obtain rfl := Host.Outcome.next.inj ((exec_ldVxK_some x hpressed hlow).symm.trans h)
      exact sameVBut_finish x _ s 15 (ne_of_namesVF hnames)
  | ldVxMem x =>
    have hx : x.val ≠ 15 := of_decide_eq_false hnames
    obtain rfl := Host.Outcome.next.inj ((exec_ldVxMem x (rangeFault_none.1 hf)).symm.trans h)
    exact (loadRegs_readV x.isLt 15).trans (if_neg (by simp; omega))
  | _ => exact congrArg (·[(15 : Reg)]) (hv rfl)

/-! ### Addresses and keys as numbers -/

theorem glyphAddress_toNat (b : Byte) : (glyphAddress b).toNat = parameters.fontBase + b.toNat * 5 := by
  rw [glyphAddress, BitVec.toNat_ofNat, parameters_fontBase]
  exact Nat.mod_eq_of_lt (by omega)

theorem keyOf_val (b : Byte) : (keyOf b).val = b.toNat % 16 := by
  change (b.extractLsb' 0 4).toNat = _
  rw [BitVec.extractLsb'_toNat, Nat.shiftRight_zero]

theorem keyPressed_eq {s : State} {x k : Reg} (h : (s.readV x).toNat % 16 = k.val) :
    s.keyPressed x = s.key[k] :=
  congrArg (fun j : Reg => s.key[j]) (Fin.ext ((keyOf_val _).trans h))

theorem keyByte_toNat (k : Reg) : (keyByte k).toNat = k.val :=
  (BitVec.toNat_ofNat k.val 8).trans (Nat.mod_eq_of_lt (by omega))

/-! ### The obligations -/

/-- Settles O18: the flag, the draw's collision (`drawSprite_collides`), and VF left alone. -/
theorem vfIsWrittenOnlyAsTheTableSays : Obligations.VFIsWrittenOnlyAsTheTableSays := by
  unfold Obligations.VFIsWrittenOnlyAsTheTableSays
  intro i s hf
  rw [tableFault_eq] at hf
  obtain ⟨t, ht⟩ := exec_next i s
  refine ⟨t, ht, fun f hflag => readV_of_flagOf hflag ht, fun hdraw => ?_, ?_,
    fun hflag hdraw hnames => readV_of_not_namesVF hf hflag hdraw hnames ht⟩
  · cases i with
    | drw x y n =>
      obtain rfl := Host.Outcome.next.inj ((exec_drw x y hf).symm.trans ht)
      rw [readV_afterDraw_flag]
      exact flagByte_zero_or_one _
    | _ => exact nomatch hdraw
  · rintro x y n rfl hcan
    obtain rfl := Host.Outcome.next.inj ((exec_drw x y hf).symm.trans ht)
    exact ⟨spriteRows x y s, rowsDrawn_spriteRows x y n hcan, drawSprite_mem x y n s,
      readV_afterDraw_eq_one_iff x y n hcan⟩

/-- Settles O25: RET reads nothing but the stack and SP, and finds there what CALL pushed. -/
theorem callThenReturnRestoresPc : Obligations.CallThenReturnRestoresPc := by
  unfold Obligations.CallThenReturnRestoresPc
  intro nnn s hsp
  refine ⟨_, exec_call nnn hsp, fun u hstack hspu => ?_⟩
  obtain ⟨htop, hdown⟩ := State.top_push (s.pc + 2#16) hsp
  have hlive : u.sp.val ≠ 0 := by
    rw [hspu, State.setPc_sp, push_sp_val _ hsp]
    omega
  have hpc : u.top = s.pc + 2#16 := by
    rw [← htop, State.top, hstack, hspu]
    rfl
  refine ⟨_, exec_ret hlive, hpc, ?_, fun j => ?_⟩
  · exact (congrArg spDown hspu).trans hdown
  · exact (congrArg (·[j]) hstack).trans (State.push_stack _ j)

/-- Settles O36: the target is a sum of a byte and twelve bits (`jumpV0Target_toNat`). -/
theorem jumpThroughV0AddsWithoutWrap : Obligations.JumpThroughV0AddsWithoutWrap := by
  unfold Obligations.JumpThroughV0AddsWithoutWrap
  intro nnn s
  have htarget := jumpV0Target_toNat s nnn
  refine ⟨decode_encode (i := .jpV0 nnn) rfl, _, rfl, htarget, ?_, onlyPc_setPc _ s⟩
  exact htarget.trans_le (by omega)

/-- Settles O48: the sum of two words wraps at 65536. -/
theorem addIndexWrapsAtSixteenBits : Obligations.AddIndexWrapsAtSixteenBits := by
  unfold Obligations.AddIndexWrapsAtSixteenBits
  intro x s
  have hsum : (s.i + zextByte (s.readV x)).toNat = (s.i.toNat + (s.readV x).toNat) % 65536 := by
    rw [BitVec.toNat_add, zextByte_toNat]
  exact ⟨decode_encode (i := .addI x) rfl, _, rfl, hsum, rfl, onlyIPc_setI_advance _ s⟩

/-- Settles O49: the largest glyph address, five times 255, fits sixteen bits. -/
theorem glyphAddressUsesTheWholeByte : Obligations.GlyphAddressUsesTheWholeByte := by
  unfold Obligations.GlyphAddressUsesTheWholeByte
  exact fun x s => ⟨decode_encode (i := .ldF x) rfl, _, rfl, glyphAddress_toNat _, rfl,
    onlyIPc_setI_advance _ s⟩

/-- Settles O55: LD Vx, DT is `finish`, the two others write a timer and advance. -/
theorem timerMovesCopyTheRegisters : Obligations.TimerMovesCopyTheRegisters := by
  unfold Obligations.TimerMovesCopyTheRegisters
  intro x s
  exact ⟨decode_encode (i := .ldVxDt x) rfl, decode_encode (i := .ldDtVx x) rfl,
    decode_encode (i := .ldStVx x) rfl, answer_of_finish (P := (· = s.dt)) rfl rfl,
    ⟨_, rfl, rfl, rfl, rfl, fun _ => rfl, fun _ => rfl, rfl, ⟨rfl, rfl⟩, ⟨rfl, rfl, rfl, rfl⟩, rfl⟩,
    ⟨_, rfl, rfl, rfl, rfl, fun _ => rfl, fun _ => rfl, rfl, ⟨rfl, rfl⟩, ⟨rfl, rfl, rfl, rfl⟩, rfl⟩⟩

/-- Settles O56: both are `skipIf` on the key that `keyOf` names. -/
theorem keySkipsTestTheLowNibblesKey : Obligations.KeySkipsTestTheLowNibblesKey := by
  unfold Obligations.KeySkipsTestTheLowNibblesKey
  intro x k s
  refine ⟨decode_encode (i := .skp x) rfl, decode_encode (i := .sknp x) rfl, fun hk => ?_⟩
  have hkey := keyPressed_eq hk
  refine ⟨⟨_, rfl, onlyPc_setPc _ s, fun h => ?_, fun h => ?_⟩,
    ⟨_, rfl, onlyPc_setPc _ s, fun h => ?_, fun h => ?_⟩⟩
  all_goals
    rw [hkey, h]
    rfl

/-- Settles O57: the two answers of LD Vx, K. -/
theorem keyReadTakesTheLowestKeyOrAwaits : Obligations.KeyReadTakesTheLowestKeyOrAwaits := by
  unfold Obligations.KeyReadTakesTheLowestKeyOrAwaits
  intro x s
  refine ⟨decode_encode (i := .ldVxK x) rfl, fun k hpressed hlow => ?_, fun hnone => ?_⟩
  · exact answer_of_finish (P := fun b => b.toNat = k.val) (exec_ldVxK_some x hpressed hlow)
      (keyByte_toNat k)
  · exact ⟨_, exec_ldVxK_none x hnone, rfl, rfl, rfl⟩

end Sys2Proof.Proofs.SingleInstructions
end
